-- ==== Sys2Proof/Config.lean ====
section
/-! DEFINITION. The named parameters of the block and of its environment (`00_scope.md` R8, `93_implementation_defined.md`
U6, U7), and the free values: constants with no body that stand where the spec says `any value`. -/

namespace Sys2Proof

/-- The parameters a model takes as arguments (R8, decisions D7 and D16). They are fixed for a machine: no step changes
them. `nChips` is `N_CHIPS`, the number of driver chips that a Chip Address may name. `hasSetLamp` says whether the Display
Driver offers the optional call `setLamp` (R162, U7). -/
structure Params where
  nChips : Nat
  hasSetLamp : Bool
deriving DecidableEq, Repr

/-- `CHIP_ROWS`, the rows one driver chip holds: the value the spec takes (R8, D8). -/
abbrev Config.chipRows : Nat := 8

/-- The rows of a chip that the ring uses, 0 to 3 (R7). -/
abbrev Config.ringRows : Nat := 4

/-- The columns of a row, 0 to 7 (R7). -/
abbrev Config.ringCols : Nat := 8

/-- Free value: `map_row` while `map_err = 1` (R183, U4), by turn and by the word on `map_idx`. -/
opaque Config.mapRowUnderError : Nat → BitVec 8 → BitVec 2

/-- Free value: `map_col` while `map_err = 1` (R183, U4), by turn and by the word on `map_idx`. -/
opaque Config.mapColUnderError : Nat → BitVec 8 → BitVec 3

/-- Free value: `fill_mask` while `fill_err = 1` (R183, U4), by turn and by the word on `fill_k`. -/
opaque Config.fillMaskUnderError : Nat → BitVec 8 → BitVec 32

/-- Free value: what a row that nothing has written holds (R212, U10), by its address. -/
opaque Config.powerOnByte : Nat → BitVec 8

/-- Free value: which of several ready callers moves next where no schedule says it (R55, U13), by turn. -/
opaque Config.arbiter : Nat → Nat

end Sys2Proof
end

