-- ==== Sys2Proof/Word.lean ====
section
/-! DEFINITION. The words of `30_encoding.md` section 2 (IDX, MASK, COORD, ROWBYTE, ROWS), the result type of an operation
that can fail (`00_scope.md` R12), and the notation helper `asr32` (R10). Bit 0 is the least significant bit (R9). -/

namespace Sys2Proof

/-- Format ROWBYTE (R75), and one byte of a port word. -/
abbrev Byte := BitVec 8

/-- Format MASK, the Ring State Mask (R72): bit `31 - j` stands for logical index `j`. -/
abbrev Mask := BitVec 32

/-- Format IDX (R73), at the width `IDX_W = 8` the spec takes (R8, D2). -/
abbrev IdxWord := BitVec 8

/-- Format COORD, the Driver Coordinate (R74): two separate fields, no packed word. -/
structure Coord where
  row : BitVec 2
  col : BitVec 3
deriving DecidableEq, Repr

/-- Format ROWS, the four Row Bytes of driver rows 0 to 3 (R76): four separate values, no packed word. -/
structure Rows where
  row0 : Byte
  row1 : Byte
  row2 : Byte
  row3 : Byte
deriving DecidableEq, Repr

/-- The result of an operation that can fail (R12, R181): a value, or the one error, which carries no value, no code and no
record of the operand. -/
inductive Result (α : Type) where
  | ok (value : α)
  | indexOutOfRange
deriving DecidableEq, Repr

/-- The three input ports of the block, one for each unit (R70). -/
inductive Port where
  | mapIdx
  | packMask
  | fillK
deriving DecidableEq, Repr

/-- `asr32(v, n)`, the arithmetic right shift of a signed 32-bit value (R10). -/
def asr32 (v : BitVec 32) (n : Nat) : BitVec 32 := v.sshiftRight n

end Sys2Proof
end

