-- ==== Sys2Proof/Syntax.lean ====
section
/-! DEFINITION. The operation set of the block (`30_encoding.md` R79): one constructor for each row of
`spec/opcode_table.json`. The operand is the whole word on the unit's input port (R78), valid or illegal. -/

namespace Sys2Proof

/-- One evaluation of one unit. The port is part of the operation: there is no opcode (R70), and MAP and FILL take the same
words on different ports. -/
inductive Instr where
  /-- MAP idx: unit MAPPER, port `map_idx` (R100). -/
  | map (idx : IdxWord)
  /-- PACK mask: unit PACKER, port `pack_mask` (R120). -/
  | pack (mask : Mask)
  /-- FILL k: unit FILLER, port `fill_k` (R140). -/
  | fill (k : IdxWord)
deriving DecidableEq, Repr

end Sys2Proof
end

