-- ==== Sys2Proof/WellFormed.lean ====
section
/-! DEFINITION. The valid operands of each operation: the patterns of the operation map (`30_encoding.md` R79). An ill-formed
instruction is still evaluated: the table's "otherwise" column gives it IndexOutOfRange (R80). -/

namespace Sys2Proof

/-- The word of the instruction fits its row of the operation map: `word & mask = match`. -/
def Instr.wellFormed : Instr → Bool
  | .map idx => idx &&& 0xE0#8 == 0x00#8
  | .pack mask => mask &&& 0x00000000#32 == 0x00000000#32
  | .fill k => k &&& 0xE0#8 == 0x00#8

end Sys2Proof
end

