-- ==== Sys2Proof/Decode.lean ====
section
/-! DEFINITION. From the bits on an input port to an operation and back (`30_encoding.md` R78 to R83). A port word is written as
its bytes, least significant first: a way to write its bits down (the numbering of `spec/opcode_table.json`), not a memory
layout (`20_memory.md` R49). -/

namespace Sys2Proof

/-- Why a list of bytes is no word of a port. -/
inductive DecodeError where
  /-- `port` does not take a word of `bytes` bytes: each port has one fixed width (R70, R83). -/
  | wrongWidth (port : Port) (bytes : Nat)
deriving DecidableEq, Repr

/-- One row of the operation map (R79), the patterns as numbers. -/
structure OpRow where
  mnemonic : String
  port : Port
  /-- Width of the port in bits. -/
  width : Nat
  matchBits : Nat
  maskBits : Nat
deriving DecidableEq, Repr

/-- The operation map (R79), row for row. -/
def opcodeTable : List OpRow :=
  [ { mnemonic := "MAP", port := .mapIdx, width := 8, matchBits := 0x00, maskBits := 0xE0 },
    { mnemonic := "PACK", port := .packMask, width := 32, matchBits := 0x00000000, maskBits := 0x00000000 },
    { mnemonic := "FILL", port := .fillK, width := 8, matchBits := 0x00, maskBits := 0xE0 } ]

/-- A word of a port fits a row: the row's fixed bits are as the row says. -/
def OpRow.fits (row : OpRow) (port : Port) (word : Nat) : Bool :=
  port == row.port && word &&& row.maskBits == row.matchBits

/-- The 32-bit word with these four bytes, `b0` least significant (R49). -/
def wordOfBytes (b0 b1 b2 b3 : Byte) : BitVec 32 := b3 ++ b2 ++ b1 ++ b0

/-- Byte `n` of a word: `word[8n+7 : 8n]` (R49). -/
def byteOfWord {w : Nat} (word : BitVec w) (n : Nat) : Byte := word.extractLsb' (8 * n) 8

/-- The operation that a word on a port asks for. Every word of the port's width is one, valid or illegal (R82); any other
number of bytes is rejected by name. -/
def decode : Port → List Byte → Except DecodeError Instr
  | .mapIdx, [b] => .ok (.map b)
  | .fillK, [b] => .ok (.fill b)
  | .packMask, [b0, b1, b2, b3] => .ok (.pack (wordOfBytes b0 b1 b2 b3))
  | port, bytes => .error (.wrongWidth port bytes.length)

/-- The port and the word that ask for an operation (R79). -/
def encode : Instr → Port × List Byte
  | .map idx => (.mapIdx, [byteOfWord idx 0])
  | .pack mask => (.packMask, [byteOfWord mask 0, byteOfWord mask 1, byteOfWord mask 2, byteOfWord mask 3])
  | .fill k => (.fillK, [byteOfWord k 0])

/-- The lowest `n` bytes of a number, least significant first. -/
def bytesOfNat : Nat → Nat → List Byte
  | 0, _ => []
  | n + 1, w => BitVec.ofNat 8 w :: bytesOfNat n (w / 256)

/-- The port a bare table word of `nbits` bits is read on. DESIGN CHOICE (safe; log entry 2): an 8-bit word alone does not
say whether it is for `map_idx` or for `fill_k`, since the block has no opcode (R70); it is read on the port of the table's
first 8-bit row. -/
def tablePort (nbits : Nat) : Port := if nbits = 32 then .packMask else .mapIdx

/-- The bytes of a bare table word. -/
def tableBytes (nbits w : Nat) : List Byte := bytesOfNat ((nbits + 7) / 8) w

/-- The operation the decoder reads from a bare table word. -/
def decodeTableWord (nbits w : Nat) : Option Instr :=
  match decode (tablePort nbits) (tableBytes nbits w) with
  | .ok i => some i
  | .error _ => none

end Sys2Proof
end

