-- ==== Sys2Proof/Machine/State.lean ====
section
/-! DEFINITION. The state of a run (`10_state.md`). The block has none (R21); the only state the spec names is the Display
Driver's row store (R27, R41). The other fields are the model's own: the parameters, the words on the ports, and the callers'
requests that are still to be served. Plain data throughout. -/

namespace Sys2Proof.Machine

/-- Reasons a step stops with a fault: none. The one error, IndexOutOfRange, is a result and not a stop: "the next evaluation,
of any unit, is independent of the failed one" (R187). -/
inductive Fault where
deriving DecidableEq, Repr

/-- Reasons a step is refused. Every one is safe: the machine stops where the spec gives no effect. -/
inductive Refusal where
  /-- An operation with no meaning yet. Raised by `exec` only. Safe. -/
  | notModelled (mnemonic : String)
  /-- A Display Driver call on a Chip Address outside 0 to `N_CHIPS - 1` (R42: "a model refuses such a call"). Raised by the
  three calls. Safe. -/
  | noSuchChip (chip : Int)
  /-- A call with a row outside 0 to 3 (R51: "a model refuses it"). Raised by `DrvWrite` and `DrvSetLamp`. Safe. -/
  | noSuchRow (row : Int)
  /-- A call with a column outside 0 to 7 (R51). Raised by `DrvSetLamp`. Safe. -/
  | noSuchColumn (col : Int)
  /-- `DrvSetLamp` asked of a Display Driver that does not offer it (R162, U7: the call is optional). Safe. -/
  | noSetLamp
  /-- Bytes presented on a port that takes a word of another width (R70, R83). Raised by the step. Safe. -/
  | notAPortWord (reason : DecodeError)
deriving DecidableEq, Repr

/-- MAPPER: the word on `map_idx` and the result it gives on `map_row`, `map_col`, `map_err` (R70). -/
structure MapperPorts where
  idx : IdxWord
  out : Result Coord
deriving DecidableEq, Repr

/-- PACKER: the word on `pack_mask` and the bytes on `pack_row0` to `pack_row3` (R70). -/
structure PackerPorts where
  mask : Mask
  out : Rows
deriving DecidableEq, Repr

/-- FILLER: the word on `fill_k` and the result it gives on `fill_mask`, `fill_err` (R70). -/
structure FillerPorts where
  k : IdxWord
  out : Result Mask
deriving DecidableEq, Repr

/-- A call on the Display Driver (R44, R45, R46). Chip, row and column are the source's `int`: a caller may name one that does
not exist. -/
inductive DrvCall where
  | write (chip row : Int) (v : Byte)
  | setLamp (chip row col : Int) (lit : Bool)
  | clear (chip : Int)
deriving DecidableEq, Repr

/-- What a caller may ask for (R197): a word on an input port, an update sequence (R161 to R163), the recomputing form of a
single-lamp update from the mask the caller holds (R168), or a Display Driver call of its own. -/
inductive Request where
  | word (port : Port) (bytes : List Byte)
  | updateFull (chip : Int) (mask : Mask)
  | updateLamp (chip : Int) (idx : IdxWord) (lit : Bool)
  | updateArc (chip : Int) (k : IdxWord)
  | recomputeLamp (chip : Int) (held : Mask) (idx : IdxWord) (lit : Bool)
  | call (c : DrvCall)
deriving DecidableEq, Repr

/-- What a caller gets back (R12): the result of a unit, the error (R181, R186), or the success of a Display Driver call
(R61). -/
inductive Reply where
  | coord (c : Coord)
  | rows (r : Rows)
  | mask (m : Mask)
  | indexOutOfRange
  | done
deriving DecidableEq, Repr

/-- One caller (R20): the requests it has still to make, in its order, and the reply to the last one it made. An update
sequence that has begun stands in `pending` as the driver calls it has still to issue. -/
structure Caller where
  pending : List Request
  reply : Option Reply
deriving DecidableEq, Repr

/-- The row store as the bytes that have been written, by address, addresses strictly rising. -/
abbrev Memory := List Host.Cell

/-- The canonical form of a memory. An unlisted address has no value of its own, so no entry can repeat one. -/
abbrev Memory.wf (m : Memory) : Prop := m.Pairwise fun a b => a.1 < b.1

/-- The state of a run. Only `ram` is state in the spec's sense; the rest is the model's (DESIGN CHOICE, log entries 4,
9, 15, 18). -/
structure State where
  /-- The parameters (R8), never changed. -/
  params : Params
  /-- Words on the MAPPER's ports. -/
  mapper : MapperPorts
  /-- Words on the PACKER's ports. -/
  packer : PackerPorts
  /-- Words on the FILLER's ports. -/
  filler : FillerPorts
  /-- `RAM[chip][row]`, the Display Driver's row store (R27, R41). -/
  ram : Memory
  /-- The callers (R20, R55). -/
  callers : List Caller
  /-- Which of the ready callers moves at each coming step (R55: the order is not fixed). -/
  schedule : List Nat
  /-- Requests served so far: the counter the free values are applied to. -/
  turn : Nat
deriving DecidableEq, Repr

/-- The machine before anything has been asked of it. The block has no reset (R210) and the row store holds `any value`
(R212): no address is listed. DESIGN CHOICE (log entries 3, 4, 5): word 0 on every input port, with the outputs R211 gives
for it; one chip, as in every test vector; a Display Driver that offers `setLamp`; no caller. -/
def State.reset : State :=
  { params := { nChips := 1, hasSetLamp := true }
    mapper := { idx := 0x00#8, out := .ok { row := 0#2, col := 0#3 } }
    packer := { mask := 0x00000000#32,
                out := { row0 := 0x00#8, row1 := 0x00#8, row2 := 0x00#8, row3 := 0x00#8 } }
    filler := { k := 0x00#8, out := .ok 0x80000000#32 }
    ram := []
    callers := []
    schedule := []
    turn := 0 }

end Sys2Proof.Machine
end

