-- ==== Sys2Proof/Machine/Operands.lean ====
section
/-! DEFINITION. Operand assembly (`30_encoding.md` R78): the range test and the five-bit value of format IDX (R73), the byte
split of format MASK (R49), and the single bits of format MASK and ROWBYTE (R13, R47). The range test and the value are
written for a port of any width, since `IDX_W` is a parameter (R8). -/

namespace Sys2Proof.Machine

/-- A word of format IDX is in range exactly when its bits from 5 up are all 0 (R73). -/
def inRange {w : Nat} (word : BitVec w) : Bool := word >>> 5 == 0#w

/-- The index or shift count of a word that is in range: `word[4:0]`, with no sign extension (R73, R78). -/
def indexOf {w : Nat} (word : BitVec w) : BitVec 5 := word.extractLsb' 0 5

/-- The byte `b_n = mask[8n+7 : 8n]` of the mask (R49, R121): a slice, never sign-extended. -/
def maskByte (mask : Mask) (n : Nat) : Byte := byteOfWord mask n

/-- `bitOf(i) = 1 << (31 - i)`: the bit of the mask that stands for logical index `i` (R13, R48). -/
def bitOf (i : BitVec 5) : Mask := 1#32 <<< (31 - i.toNat)

/-- The byte with the one bit of a column: `0x80 >> col` (R47). -/
def columnBit (col : Nat) : Byte := 0x80#8 >>> col

/-- The mask `held` with lamp `i` lit or darkened: `held | bitOf(i)` or `held & ~bitOf(i)` (R168). -/
def withLamp (held : Mask) (i : BitVec 5) (lit : Bool) : Mask :=
  if lit then held ||| bitOf i else held &&& ~~~bitOf i

/-- A row byte with one column lit or darkened: `old | m` or `old & ~m` with `m = 0x80 >> col` (R45). -/
def withColumn (old : Byte) (col : Nat) (lit : Bool) : Byte :=
  if lit then old ||| columnBit col else old &&& ~~~columnBit col

/-- The byte of row `r` among four. -/
def rowOf (rows : Rows) (r : BitVec 2) : Byte :=
  if r = 0#2 then rows.row0 else if r = 1#2 then rows.row1 else if r = 2#2 then rows.row2 else rows.row3

end Sys2Proof.Machine
end

