-- ==== Sys2Proof/Machine/Ops.lean ====
section
/-! DEFINITION. The operations over the row store (`20_memory.md` R41), over the words on the ports (`30_encoding.md` R70,
R71) and over the callers' requests, and the one error: raising it and telling a caller of it (`60_exceptions.md` R181,
R186). -/

namespace Sys2Proof.Machine

/-- The byte written at an address, `none` where nothing has been written. -/
def Memory.read? : Memory → Nat → Option Byte
  | [], _ => none
  | cell :: rest, a => if a = cell.1 then some cell.2 else Memory.read? rest a

/-- Writes one byte, keeping the addresses strictly rising. -/
def Memory.write : Memory → Nat → Byte → Memory
  | [], a, v => [(a, v)]
  | cell :: rest, a, v =>
    if a < cell.1 then (a, v) :: cell :: rest
    else if a = cell.1 then (a, v) :: rest
    else cell :: Memory.write rest a v

/-- The byte the store holds at an address: what was written last, or the free value it started with (R212; log
entry 5). -/
def Memory.byteAt (m : Memory) (a : Nat) : Byte := (m.read? a).getD (Config.powerOnByte a)

/-- Writes `v` at `count` addresses from `a` up. -/
def Memory.fillBytes (m : Memory) (a : Nat) (v : Byte) : Nat → Memory
  | 0 => m
  | n + 1 => (Memory.fillBytes m a v n).write (a + n) v

/-- The address of `RAM[chip][row]`: the pair (chip, row) (R41) as one number. Different pairs with a row below `CHIP_ROWS`
have different addresses (R42). -/
def rowAddr (chip row : Int) : Nat := chip.toNat * Config.chipRows + row.toNat

/-- `RAM[chip][row]` (R41). -/
def State.rowByte (s : State) (chip row : Int) : Byte := s.ram.byteAt (rowAddr chip row)

/-- `RAM[chip][row] <- v` (R44). -/
def State.putRow (s : State) (chip row : Int) (v : Byte) : State :=
  { s with ram := s.ram.write (rowAddr chip row) v }

/-- A Chip Address names a chip: it lies in 0 to `N_CHIPS - 1` (R42). -/
def hasChip (p : Params) (chip : Int) : Bool := 0 ≤ chip && chip < p.nChips

/-- A row of the ring: 0 to 3 (R7, R51). -/
def isRow (row : Int) : Bool := 0 ≤ row && row < Config.ringRows

/-- A column: 0 to 7 (R7, R51). -/
def isCol (col : Int) : Bool := 0 ≤ col && col < Config.ringCols

/-- Raising IndexOutOfRange (R181, R186): the operation's result is the error, in place of its value. Nothing is saved, no
mode changes and nothing is recorded, so there is no return to undo it (R187). DEDUCED (log entry 7): it is no stop. -/
def raiseIndexOutOfRange {α : Type} : Result α := .indexOutOfRange

/-- A word on `map_idx`, with the result it gives (R71). The other units' ports are untouched (R70). -/
def State.driveMapper (s : State) (idx : IdxWord) (out : Result Coord) : State :=
  { s with mapper := { idx := idx, out := out } }

/-- A word on `pack_mask`, with the row bytes it gives (R71). -/
def State.drivePacker (s : State) (mask : Mask) (out : Rows) : State :=
  { s with packer := { mask := mask, out := out } }

/-- A word on `fill_k`, with the result it gives (R71). -/
def State.driveFiller (s : State) (k : IdxWord) (out : Result Mask) : State :=
  { s with filler := { k := k, out := out } }

/-- Changes caller `c` and no other. -/
def State.updateCaller (s : State) (c : Nat) (f : Caller → Caller) : State :=
  { s with callers := s.callers.modify c f }

/-- What caller `c` gets back (R12, R186: an error is "reported to the caller"). -/
def State.giveReply (s : State) (c : Nat) (reply : Option Reply) : State :=
  s.updateCaller c fun caller => { caller with reply := reply }

/-- The rest of an update sequence that caller `c` has begun: it comes before the caller's later requests, and the caller has
no reply yet (R160). -/
def State.continueWith (s : State) (c : Nat) (rest : List Request) : State :=
  s.updateCaller c fun caller => { pending := rest ++ caller.pending, reply := none }

/-- Goes on from a next state, and leaves a stop as it is. -/
def onNext (o : Host.Outcome State Fault Refusal) (f : State → Host.Outcome State Fault Refusal) :
    Host.Outcome State Fault Refusal :=
  match o with
  | .next s => f s
  | .fault r => .fault r
  | .refused r => .refused r

end Sys2Proof.Machine
end

