-- ==== Sys2Proof/Machine/Flags.lean ====
section
/-! DEFINITION. The output pins, read from the state: the error bits (format ERR, `30_encoding.md` R77) and the data outputs,
which have no meaning while the error bit is 1 (`60_exceptions.md` R183) and are then free values. The error bits are no
flags: nothing stores them and no operation reads them (R24, R184). -/

namespace Sys2Proof.Machine

/-- The error bit of a result: 1 means IndexOutOfRange, 0 that the other outputs hold the result (R77). -/
def errBit {α : Type} : Result α → Bool
  | .ok _ => false
  | .indexOutOfRange => true

/-- `map_err` (R77). -/
def State.mapErr (s : State) : Bool := errBit s.mapper.out

/-- `fill_err` (R77). -/
def State.fillErr (s : State) : Bool := errBit s.filler.out

/-- `map_row[1:0]` (R70): a free value under an error (R183; log entry 8, safe). -/
def State.mapRow (s : State) : BitVec 2 :=
  match s.mapper.out with
  | .ok c => c.row
  | .indexOutOfRange => Config.mapRowUnderError s.turn s.mapper.idx

/-- `map_col[2:0]` (R70): a free value under an error (R183). -/
def State.mapCol (s : State) : BitVec 3 :=
  match s.mapper.out with
  | .ok c => c.col
  | .indexOutOfRange => Config.mapColUnderError s.turn s.mapper.idx

/-- `fill_mask[31:0]` (R70): a free value under an error (R183). -/
def State.fillMaskPin (s : State) : Mask :=
  match s.filler.out with
  | .ok m => m
  | .indexOutOfRange => Config.fillMaskUnderError s.turn s.filler.k

end Sys2Proof.Machine
end

