-- ==== Sys2Proof/Machine/Filler.lean ====
section
/-! DEFINITION. The fill-from-one-end mask constructor, operation FILL (`42_fill.md`). -/

namespace Sys2Proof.Machine

/-- The mask that lights lamps 0 to `n` (R140): `0xFFFFFFFF << (31 - n)` at 32 bits, the unsigned form of R142. -/
def fillMask (n : BitVec 5) : Mask := 0xFFFFFFFF#32 <<< (31 - n.toNat)

/-- The source's signed form, `asr32(0x80000000, n)` (R141). -/
def fillMaskSigned (n : BitVec 5) : Mask := asr32 0x80000000#32 n.toNat

/-- FILL of a word of any width (R140, R8): a word that is out of range has no mask (R144). -/
def fillWord {w : Nat} (k : BitVec w) : Result Mask :=
  if inRange k then .ok (fillMask (indexOf k)) else raiseIndexOutOfRange

/-- FILL as an evaluation in a run (R140): the word on `fill_k`, its result on the FILLER's outputs, nothing else. -/
def execFill (k : IdxWord) (s : State) : Host.Outcome State Fault Refusal :=
  .next (s.driveFiller k (fillWord k))

end Sys2Proof.Machine
end

