-- ==== Sys2Proof/Machine/Mapper.lean ====
section
/-! DEFINITION. The Ring Index Mapper, operation MAP (`40_mapper.md`), and its inverse for proofs (R107). -/

namespace Sys2Proof.Machine

/-- The Driver Coordinate of logical index `i`, 0 to 31: R101 for the first half of the ring, R102 for the second, which
sweeps the rows in reverse and occupies columns 4 to 7. -/
def mapCoord (i : BitVec 5) : Coord :=
  if i.toNat ≤ 15 then
    { row := BitVec.ofNat 2 (i.toNat / 4), col := BitVec.ofNat 3 (i.toNat % 4) }
  else
    { row := BitVec.ofNat 2 (3 - (i.toNat - 16) / 4), col := BitVec.ofNat 3 (4 + i.toNat % 4) }

/-- MAP of a word of any width (R100, R8): the range test comes first, and a word that is out of range has no coordinate
(R103). -/
def mapWord {w : Nat} (idx : BitVec w) : Result Coord :=
  if inRange idx then .ok (mapCoord (indexOf idx)) else raiseIndexOutOfRange

/-- UNMAP (R107), the inverse of MAP: no port of the block. -/
def unmap (c : Coord) : BitVec 5 :=
  if c.col.toNat ≤ 3 then BitVec.ofNat 5 (4 * c.row.toNat + c.col.toNat)
  else BitVec.ofNat 5 (16 + 4 * (3 - c.row.toNat) + (c.col.toNat - 4))

/-- MAP as an evaluation in a run (R100): the word on `map_idx`, its result on the MAPPER's outputs, nothing else. -/
def execMap (idx : IdxWord) (s : State) : Host.Outcome State Fault Refusal :=
  .next (s.driveMapper idx (mapWord idx))

end Sys2Proof.Machine
end

