-- ==== Sys2Proof/Machine/Packer.lean ====
section
/-! DEFINITION. The Ring Bitfield Packer, operation PACK (`41_packer.md`), and its inverse for proofs (R132). -/

namespace Sys2Proof.Machine

/-- `b & 0x0F`. -/
def lowNibble (b : Byte) : Byte := b &&& 0x0F#8

/-- `b & 0xF0`. -/
def highNibble (b : Byte) : Byte := b &&& 0xF0#8

/-- `b >> 4`, a logical shift of an unsigned byte (R170). -/
def highToLow (b : Byte) : Byte := b >>> 4

/-- `(b << 4) & 0xF0`: the shift is formed at 12 bits and the mask cuts it to 8 (R120). -/
def lowToHigh (b : Byte) : Byte := ((b.setWidth 12 <<< 4) &&& 0x0F0#12).setWidth 8

/-- PACK (R120): the nibble formulas of R122 to R125 over the byte split of R121. It never fails (R127). -/
def packRows (mask : Mask) : Rows :=
  { row0 := lowNibble (maskByte mask 0) ||| highNibble (maskByte mask 3)
    row1 := highToLow (maskByte mask 0) ||| lowToHigh (maskByte mask 3)
    row2 := lowNibble (maskByte mask 1) ||| highNibble (maskByte mask 2)
    row3 := highToLow (maskByte mask 1) ||| lowToHigh (maskByte mask 2) }

/-- UNPACK (R132), the inverse of PACK: no port of the block. -/
def unpackRows (rows : Rows) : Mask :=
  wordOfBytes
    (lowNibble rows.row0 ||| lowToHigh rows.row1)
    (lowNibble rows.row2 ||| lowToHigh rows.row3)
    (highNibble rows.row2 ||| highToLow rows.row3)
    (highNibble rows.row0 ||| highToLow rows.row1)

/-- PACK as an evaluation in a run (R120): the word on `pack_mask`, its rows on the PACKER's outputs, nothing else. -/
def execPack (mask : Mask) (s : State) : Host.Outcome State Fault Refusal :=
  .next (s.drivePacker mask (packRows mask))

end Sys2Proof.Machine
end

