-- ==== Sys2Proof/Machine/Dispatch.lean ====
section
/-! DEFINITION. One arm for each operation (`30_encoding.md` R79). -/

namespace Sys2Proof.Machine

def exec (i : Instr) (s : State) : Host.Outcome State Fault Refusal :=
  match i with
  | .map idx => Sys2Proof.Machine.execMap idx s
  | .pack mask => Sys2Proof.Machine.execPack mask s
  | .fill k => Sys2Proof.Machine.execFill k s

end Sys2Proof.Machine
end

