-- ==== Sys2Proof/Machine/Driver.lean ====
section
/-! DEFINITION. The Display Driver's three calls on the row store (`20_memory.md` R44 to R46) and the lamp it shows (R62). A
call is one indivisible change (R53) and is taken to succeed (R61). A call that names a chip, row or column that does not
exist is refused (R42, R51). -/

namespace Sys2Proof.Machine

/-- `DrvWrite(chip, row, v)` (R44): all 8 bits of one row replaced, no other byte changed. -/
def drvWrite (chip row : Int) (v : Byte) (s : State) : Host.Outcome State Fault Refusal :=
  if hasChip s.params chip then
    if isRow row then .next (s.putRow chip row v)
    else .refused (.noSuchRow row)
  else .refused (.noSuchChip chip)

/-- `DrvSetLamp(chip, row, col, lit)` (R45): one bit of one row, read, modified and written back at once. -/
def drvSetLamp (chip row col : Int) (lit : Bool) (s : State) : Host.Outcome State Fault Refusal :=
  if s.params.hasSetLamp then
    if hasChip s.params chip then
      if isRow row then
        if isCol col then .next (s.putRow chip row (withColumn (s.rowByte chip row) col.toNat lit))
        else .refused (.noSuchColumn col)
      else .refused (.noSuchRow row)
    else .refused (.noSuchChip chip)
  else .refused .noSetLamp

/-- `DrvClear(chip)` (R46): every row of the chip becomes 0, rows 4 to 7 included. -/
def drvClear (chip : Int) (s : State) : Host.Outcome State Fault Refusal :=
  if hasChip s.params chip then
    .next { s with ram := s.ram.fillBytes (rowAddr chip 0) 0x00#8 Config.chipRows }
  else .refused (.noSuchChip chip)

/-- One call on the Display Driver. -/
def drvCall (c : DrvCall) (s : State) : Host.Outcome State Fault Refusal :=
  match c with
  | .write chip row v => drvWrite chip row v s
  | .setLamp chip row col lit => drvSetLamp chip row col lit s
  | .clear chip => drvClear chip s

/-- The state of the lamp at a Driver Coordinate: bit `7 - c` of `RAM[chip][r]` (R27). -/
def State.litAt (s : State) (chip : Int) (c : Coord) : Bool :=
  (s.rowByte chip c.row.toNat).getLsbD (7 - c.col.toNat)

/-- `Lit(chip, i)`, the state of the lamp with logical index `i` (R62). -/
def State.lit (s : State) (chip : Int) (i : BitVec 5) : Bool := s.litAt chip (mapCoord i)

end Sys2Proof.Machine
end

