-- ==== Sys2Proof/Machine/Sequences.lean ====
section
/-! DEFINITION. The update sequences (`43_update_sequences.md`). A sequence begins with the evaluation of its unit and goes on
as the driver calls it has still to issue, each of them one step, so that other callers' calls may come between them (R55). An
error issues no call and goes to the caller (R164). No sequence clears (R165). -/

namespace Sys2Proof.Machine

/-- The four calls of UPDATE_FULL, in the order row 0, 1, 2, 3 that R161 fixes (log entry 16). -/
def fullCalls (chip : Int) (rows : Rows) : List Request :=
  [.call (.write chip 0 rows.row0), .call (.write chip 1 rows.row1),
   .call (.write chip 2 rows.row2), .call (.write chip 3 rows.row3)]

/-- The one call of UPDATE_LAMP (R162): `DrvSetLamp`, or, where the driver lacks it, one `DrvWrite` of the row read back with
its one bit set or cleared. DESIGN CHOICE (unsafe with several callers; log entry 11): the row is read when MAP is evaluated. -/
def lampCall (chip : Int) (place : Coord) (lit : Bool) (s : State) : Request :=
  if s.params.hasSetLamp then .call (.setLamp chip place.row.toNat place.col.toNat lit)
  else .call (.write chip place.row.toNat (withColumn (s.rowByte chip place.row.toNat) place.col.toNat lit))

/-- UPDATE_FULL(chip, mask) of caller `c`, first step (R161): PACK, and the four writes to come. -/
def updateFull (c : Nat) (chip : Int) (mask : Mask) (s : State) : Host.Outcome State Fault Refusal :=
  onNext (execPack mask s) fun t => .next (t.continueWith c (fullCalls chip t.packer.out))

/-- UPDATE_LAMP(chip, idx, lit) of caller `c`, first step (R162): MAP, and the one call to come. -/
def updateLamp (c : Nat) (chip : Int) (idx : IdxWord) (lit : Bool) (s : State) : Host.Outcome State Fault Refusal :=
  onNext (execMap idx s) fun t =>
    match t.mapper.out with
    | .ok place => .next (t.continueWith c [lampCall chip place lit t])
    | .indexOutOfRange => .next (t.giveReply c (some .indexOutOfRange))

/-- UPDATE_ARC(chip, k) of caller `c`, first step (R163): FILL, and UPDATE_FULL of its mask to come. -/
def updateArc (c : Nat) (chip : Int) (k : IdxWord) (s : State) : Host.Outcome State Fault Refusal :=
  onNext (execFill k s) fun t =>
    match t.filler.out with
    | .ok mask => .next (t.continueWith c [.updateFull chip mask])
    | .indexOutOfRange => .next (t.giveReply c (some .indexOutOfRange))

/-- The recomputing form of a single-lamp update from the mask the caller holds, first step (R168): MAP and PACK of the
changed mask, and one write of the row that changed to come. -/
def recomputeLamp (c : Nat) (chip : Int) (held : Mask) (idx : IdxWord) (lit : Bool) (s : State) :
    Host.Outcome State Fault Refusal :=
  onNext (execMap idx s) fun t =>
    match t.mapper.out with
    | .ok place =>
      onNext (execPack (withLamp held (indexOf idx) lit) t) fun u =>
        .next (u.continueWith c [.call (.write chip place.row.toNat (rowOf u.packer.out place.row))])
    | .indexOutOfRange => .next (t.giveReply c (some .indexOutOfRange))

end Sys2Proof.Machine
end

