-- ==== Sys2Proof/Machine/Requests.lean ====
section
/-! DEFINITION. Which request is served next, and serving it (`20_memory.md` R55, `60_exceptions.md` R197). There is no
program counter (R23): what a step runs is the first pending request of the caller whose turn it is. -/

namespace Sys2Proof.Machine

/-- The callers with a request pending, by position, counted from a given one. -/
def readyFrom : Nat → List Caller → List Nat
  | _, [] => []
  | n, caller :: rest => if caller.pending.isEmpty then readyFrom (n + 1) rest else n :: readyFrom (n + 1) rest

/-- The callers with a request pending. -/
def State.ready (s : State) : List Nat := readyFrom 0 s.callers

/-- The number that settles who moves: the schedule's next entry, or a free value where the schedule has none (R55).
DESIGN CHOICE (safe; log entry 9). -/
def State.draw (s : State) : Nat :=
  match s.schedule with
  | k :: _ => k
  | [] => Config.arbiter s.turn

/-- The caller that moves next: the only ready one, or, of several, the one that the draw picks (R55). -/
def State.chosen (s : State) : Option Nat :=
  match s.ready with
  | [] => none
  | [c] => some c
  | cs => cs[s.draw % cs.length]?

/-- The caller that moves next and its request. -/
def State.fetch (s : State) : Option (Nat × Request) :=
  match s.chosen with
  | none => none
  | some c =>
    match s.callers[c]? with
    | none => none
    | some caller =>
      match caller.pending with
      | [] => none
      | r :: _ => some (c, r)

/-- The state in which caller `c`'s first request has been taken up: it is no longer pending, and the turn and the schedule
have moved on. -/
def State.take (s : State) (c : Nat) : State :=
  { s with
    callers := s.callers.modify c fun caller => { caller with pending := caller.pending.tail }
    schedule := s.schedule.tail
    turn := s.turn + 1 }

/-- What the caller of an evaluation gets back: the result now on the outputs of the unit (R12, R70). -/
def replyTo (i : Instr) (s : State) : Reply :=
  match i with
  | .map _ =>
    match s.mapper.out with
    | .ok c => .coord c
    | .indexOutOfRange => .indexOutOfRange
  | .pack _ => .rows s.packer.out
  | .fill _ =>
    match s.filler.out with
    | .ok m => .mask m
    | .indexOutOfRange => .indexOutOfRange

/-- One operation for caller `c`: its effect, and the reply. -/
def serveInstr (c : Nat) (i : Instr) (s : State) : Host.Outcome State Fault Refusal :=
  onNext (exec i s) fun t => .next (t.giveReply c (some (replyTo i t)))

/-- One Display Driver call for caller `c`: its effect, and the reply. -/
def serveCall (c : Nat) (d : DrvCall) (s : State) : Host.Outcome State Fault Refusal :=
  onNext (drvCall d s) fun t => .next (t.giveReply c (some .done))

/-- Serves one request of caller `c`. -/
def serve (c : Nat) (r : Request) (s : State) : Host.Outcome State Fault Refusal :=
  match r with
  | .word port bytes =>
    match decode port bytes with
    | .ok i => serveInstr c i s
    | .error e => .refused (.notAPortWord e)
  | .updateFull chip mask => updateFull c chip mask s
  | .updateLamp chip idx lit => updateLamp c chip idx lit s
  | .updateArc chip k => updateArc c chip k s
  | .recomputeLamp chip held idx lit => recomputeLamp c chip held idx lit s
  | .call d => serveCall c d s

/-- The state with a request put before everything that the caller to move would ask next (log entry 6). With no ready caller it becomes the first
caller's request, and a caller is there to make it. -/
def State.putFirst (s : State) (r : Request) : State :=
  match s.chosen with
  | some c => s.updateCaller c fun caller => { caller with pending := r :: caller.pending }
  | none =>
    match s.callers with
    | [] => { s with callers := [{ pending := [r], reply := none }] }
    | _ :: _ => s.updateCaller 0 fun caller => { caller with pending := r :: caller.pending }

/-- A bare table word as a request (log entry 2). -/
def tableRequest (nbits w : Nat) : Request := .word (tablePort nbits) (tableBytes nbits w)

end Sys2Proof.Machine
end

