-- ==== Sys2Proof/Machine/Step.lean ====
section
/-! DEFINITION. One step of a run: one request served. -/

namespace Sys2Proof.Machine

/-- One step: the next request is taken up and served. With nothing asked, nothing changes: the block does nothing on its own
and its outputs stay what the words on its ports make them (R21, R71). DESIGN CHOICE (safe; log entry 17). -/
def step (s : State) : Host.Outcome State Fault Refusal :=
  match s.fetch with
  | none => .next s
  | some (c, r) => serve c r (s.take c)

/-- A bare table word as the request that the next step serves. -/
def State.withFetchWord (s : State) (nbits w : Nat) : State := s.putFirst (tableRequest nbits w)

end Sys2Proof.Machine
end

