-- ==== Sys2Proof/Safety.lean ====
section
/-! DEFINITION. What a good state and a safe run are, in the words the statements use. -/

namespace Sys2Proof.Machine

/-- Every unit's outputs are the function of the word on its own port (R21, R71, R211): the ports hold no state. -/
def PortsSettled (s : State) : Prop :=
  s.mapper.out = mapWord s.mapper.idx ∧ s.packer.out = packRows s.packer.mask ∧ s.filler.out = fillWord s.filler.k

/-- The row store is in canonical form and lists only rows of chips that exist (R41). -/
def StoreInBounds (s : State) : Prop :=
  Memory.wf s.ram ∧ ∀ cell ∈ s.ram, cell.1 < s.params.nChips * Config.chipRows

/-- A driver call that names what exists (R42, R51). -/
def DrvCall.admissible (p : Params) : DrvCall → Bool
  | .write chip row _ => hasChip p chip && isRow row
  | .setLamp chip row col _ => p.hasSetLamp && hasChip p chip && isRow row && isCol col
  | .clear chip => hasChip p chip

/-- A request that names what exists. An index or `k` out of range is admissible: it gives an error, not a stop (R187). -/
def Request.admissible (p : Params) : Request → Bool
  | .word port bytes => (decode port bytes).isOk
  | .updateFull chip _ => hasChip p chip
  | .updateLamp chip _ _ => hasChip p chip
  | .updateArc chip _ => hasChip p chip
  | .recomputeLamp chip _ _ _ => hasChip p chip
  | .call c => c.admissible p

/-- Every pending request of every caller names what exists. -/
def AllAdmissible (s : State) : Prop :=
  ∀ caller ∈ s.callers, ∀ r ∈ caller.pending, r.admissible s.params = true

/-- `k` steps, `none` if one of them stops. -/
def steps : Nat → State → Option State
  | 0, s => some s
  | n + 1, s =>
    match step s with
    | .next t => steps n t
    | .fault _ => none
    | .refused _ => none

/-- Driver calls one after another, `none` if one of them stops. -/
def runCalls : List DrvCall → State → Option State
  | [], s => some s
  | c :: rest, s =>
    match drvCall c s with
    | .next t => runCalls rest t
    | .fault _ => none
    | .refused _ => none

/-- No caller has a `DrvClear` pending. -/
def NoClearPending (s : State) : Prop :=
  ∀ caller ∈ s.callers, ∀ chip, .call (.clear chip) ∉ caller.pending

/-- The four Row Bytes that rows 0 to 3 of a chip hold. -/
def ringRows (s : State) (chip : Int) : Rows :=
  { row0 := s.rowByte chip 0, row1 := s.rowByte chip 1, row2 := s.rowByte chip 2, row3 := s.rowByte chip 3 }

end Sys2Proof.Machine
end

