-- ==== Sys2Proof/Certificates/Slice0/Obligations.lean ====
section
/-! DEFINITION. The statements for the provers. Each cites the rule of `spec/` it formalises, or says what it is derived
from. -/

open Sys2Proof Sys2Proof.Machine

/-! ### Encoding -/

/-- R82, R83: every operation's port word is read back as that operation, with every operand the word can hold. The
bytes of a word are a notation of the model's (log entry 1). -/
def Obligations.DecodeOfEncode : Prop :=
  ∀ i : Instr, decode (encode i).1 (encode i).2 = .ok i

/-- R82: a port word that is read as an operation is that operation's word, so that no bit of it is dropped. -/
def Obligations.EncodeOfDecode : Prop :=
  ∀ (port : Port) (bytes : List Byte) (i : Instr), decode port bytes = .ok i → encode i = (port, bytes)

/-- R79, R82, R83: on each port of the operation map, exactly the words of the port's width are operations, and any other
number of bytes is rejected by name. -/
def Obligations.DecodeAcceptsExactlyPortWords : Prop :=
  ∀ row ∈ opcodeTable, ∀ bytes : List Byte,
    (8 * bytes.length = row.width → ∃ i, decode row.port bytes = .ok i) ∧
    (8 * bytes.length ≠ row.width → decode row.port bytes = .error (.wrongWidth row.port bytes.length))

/-- R79: five words of the operation map, on their ports, are the operations they stand for. The two PACK lines write the
word as its bytes, least significant first: the model's notation (DESIGN CHOICE, log entry 1), since R79 gives the word as a
number and R49 gives it no memory layout. -/
def Obligations.SampleWordsDecode : Prop :=
  decode .mapIdx [0x16#8] = .ok (.map 22#8) ∧
  decode .mapIdx [0xFF#8] = .ok (.map 0xFF#8) ∧
  decode .fillK [0x03#8] = .ok (.fill 3#8) ∧
  decode .packMask [0x78#8, 0x56#8, 0x34#8, 0x12#8] = .ok (.pack 0x12345678#32) ∧
  decode .packMask [0x00#8, 0x00#8, 0x00#8, 0x80#8] = .ok (.pack 0x80000000#32)

/-- R80: for MAP and FILL every word with any of bits 7 to 5 set, and no other, raises IndexOutOfRange: the words 0x20 to
0xFF. Both ask for no more than the word: the evaluation answers a next state either way. -/
def Obligations.IllegalWordsRaise : Prop :=
  ∀ (word : IdxWord) (s : State),
    (∃ t, exec (.map word) s = .next t ∧ (t.mapper.out = .indexOutOfRange ↔ ∃ b, 5 ≤ b ∧ word.getLsbD b = true) ∧
      (t.mapper.out = .indexOutOfRange ↔ 0x20 ≤ word.toNat)) ∧
    (∃ t, exec (.fill word) s = .next t ∧ (t.filler.out = .indexOutOfRange ↔ ∃ b, 5 ≤ b ∧ word.getLsbD b = true) ∧
      (t.filler.out = .indexOutOfRange ↔ 0x20 ≤ word.toNat))

/-- R79: the words that fit an operation's row of the map are the ones for which it returns a result. -/
def Obligations.WellFormedGivesResult : Prop :=
  ∀ (i : Instr) (s : State), ∃ t, exec i s = .next t ∧ (i.wellFormed = true ↔ replyTo i t ≠ .indexOutOfRange)

/-- R73: at every width the range test has one meaning, whether the word is read as unsigned or as two's complement, and the
value of a word in range is its five low bits. -/
def Obligations.RangeTestNeedsNoSignedness : Prop :=
  ∀ (w : Nat) (word : BitVec w), 7 ≤ w →
    (inRange word = true ↔ ∀ b, 5 ≤ b → word.getLsbD b = false) ∧
    (inRange word = true ↔ word.toNat ≤ 31) ∧
    (inRange word = true ↔ 0 ≤ word.toInt ∧ word.toInt ≤ 31) ∧
    (inRange word = true → (indexOf word).toNat = word.toNat)

/-- R8: `IDX_W` affects only which out-of-range values can be presented, never the result for a value in range. -/
def Obligations.IndexWidthDoesNotMatter : Prop :=
  ∀ (w n : Nat), 7 ≤ w → n < 32 →
    mapWord (BitVec.ofNat w n) = mapWord (BitVec.ofNat 8 n) ∧ fillWord (BitVec.ofNat w n) = fillWord (BitVec.ofNat 8 n)

/-! ### MAP -/

/-- R101: the first half of the ring. The whole next state is given: nothing but the MAPPER's ports changes. -/
def Obligations.MapFirstHalf : Prop :=
  ∀ (idx : IdxWord) (s : State), idx.toNat ≤ 15 →
    exec (.map idx) s = .next { s with
      mapper := { idx := idx,
                  out := .ok { row := BitVec.ofNat 2 (idx.toNat / 4), col := BitVec.ofNat 3 (idx.toNat % 4) } } }

/-- R102: the second half of the ring, with the same frame. -/
def Obligations.MapSecondHalf : Prop :=
  ∀ (idx : IdxWord) (s : State), 16 ≤ idx.toNat → idx.toNat ≤ 31 →
    exec (.map idx) s = .next { s with
      mapper := { idx := idx,
                  out := .ok { row := BitVec.ofNat 2 (3 - (idx.toNat - 16) / 4),
                               col := BitVec.ofNat 3 (4 + idx.toNat % 4) } } }

/-- R103: an index out of range gives the error, no coordinate, and `map_err = 1`; nothing else changes. -/
def Obligations.MapRejectsOutOfRange : Prop :=
  ∀ (idx : IdxWord) (s : State), 32 ≤ idx.toNat →
    ∃ t, exec (.map idx) s = .next t ∧ t = { s with mapper := { idx := idx, out := .indexOutOfRange } } ∧ t.mapErr = true

/-- R106: the bit-level form of MAP on its pins, for every word. -/
def Obligations.MapIsWiresAndTwoXors : Prop :=
  ∀ (idx : IdxWord) (s : State), ∃ t, exec (.map idx) s = .next t ∧
    t.mapErr = (idx.getLsbD 7 || idx.getLsbD 6 || idx.getLsbD 5) ∧
    (t.mapErr = false →
      t.mapCol.getLsbD 2 = idx.getLsbD 4 ∧ t.mapCol.getLsbD 1 = idx.getLsbD 1 ∧ t.mapCol.getLsbD 0 = idx.getLsbD 0 ∧
      t.mapRow.getLsbD 1 = (idx.getLsbD 3 ^^ idx.getLsbD 4) ∧ t.mapRow.getLsbD 0 = (idx.getLsbD 2 ^^ idx.getLsbD 4))

/-- R104: every index in range has one coordinate, and every coordinate is the result of exactly one word on `map_idx`. -/
def Obligations.MapIsBijection : Prop :=
  ∀ s : State,
    (∀ idx : IdxWord, idx.toNat ≤ 31 → ∃ t c, exec (.map idx) s = .next t ∧ t.mapper.out = .ok c) ∧
    (∀ c : Coord, ∃! idx : IdxWord, ∃ t, exec (.map idx) s = .next t ∧ t.mapper.out = .ok c)

/-- R107: UNMAP by its formula, and that it is the inverse of MAP on both sides. -/
def Obligations.UnmapInvertsMap : Prop :=
  (∀ c : Coord,
    (c.col.toNat ≤ 3 → (unmap c).toNat = 4 * c.row.toNat + c.col.toNat) ∧
    (4 ≤ c.col.toNat → (unmap c).toNat = 16 + 4 * (3 - c.row.toNat) + (c.col.toNat - 4)) ∧
    mapCoord (unmap c) = c) ∧
  (∀ i : BitVec 5, unmap (mapCoord i) = i)

/-! ### PACK -/

/-- R120, R122 to R125: the four row bytes by the nibble formulas over the byte split, for every mask and from every state,
with the frame: nothing but the PACKER's ports changes. The shift left is at 8 bits, where it gives what the 12-bit one
gives. -/
def Obligations.PackFormulas : Prop :=
  ∀ (mask : Mask) (s : State) (b0 b1 b2 b3 : Byte),
    b0 = mask.extractLsb' 0 8 → b1 = mask.extractLsb' 8 8 → b2 = mask.extractLsb' 16 8 → b3 = mask.extractLsb' 24 8 →
    exec (.pack mask) s = .next { s with
      packer := { mask := mask,
                  out := { row0 := (b0 &&& 0x0F#8) ||| (b3 &&& 0xF0#8)
                           row1 := (b0 >>> 4) ||| ((b3 <<< 4) &&& 0xF0#8)
                           row2 := (b1 &&& 0x0F#8) ||| (b2 &&& 0xF0#8)
                           row3 := (b1 >>> 4) ||| ((b2 <<< 4) &&& 0xF0#8) } } }

/-- R130: PACK is a fixed rewiring: the high nibble of row `r` is `mask[31-4r : 28-4r]`, its low nibble `mask[4r+3 : 4r]`. -/
def Obligations.PackIsFixedWiring : Prop :=
  ∀ (mask : Mask) (s : State), ∃ t, exec (.pack mask) s = .next t ∧
    ∀ (r : BitVec 2) (k : Nat), k < 4 →
      (rowOf t.packer.out r).getLsbD (4 + k) = mask.getLsbD (28 - 4 * r.toNat + k) ∧
      (rowOf t.packer.out r).getLsbD k = mask.getLsbD (4 * r.toNat + k)

/-- R132: UNPACK by its formulas, and that it and PACK are inverse to each other, on every mask and on every four bytes. -/
def Obligations.UnpackInvertsPack : Prop :=
  (∀ (rows : Rows) (b0 b1 b2 b3 : Byte),
    b0 = (rows.row0 &&& 0x0F#8) ||| ((rows.row1 &&& 0x0F#8) <<< 4) → b3 = (rows.row0 &&& 0xF0#8) ||| (rows.row1 >>> 4) →
    b1 = (rows.row2 &&& 0x0F#8) ||| ((rows.row3 &&& 0x0F#8) <<< 4) → b2 = (rows.row2 &&& 0xF0#8) ||| (rows.row3 >>> 4) →
    unpackRows rows = b3 ++ b2 ++ b1 ++ b0) ∧
  (∀ mask : Mask, unpackRows (packRows mask) = mask) ∧ (∀ rows : Rows, packRows (unpackRows rows) = rows)

/-- R133: PACK distributes over the bitwise operations, row by row; the rows of a mask are the OR of the rows of its single
set bits; and PACK of the bit of lamp `i` has one set bit, at the place MAP gives. -/
def Obligations.PackIsLinear : Prop :=
  (∀ (a b : Mask) (r : BitVec 2),
    rowOf (packRows (a ||| b)) r = rowOf (packRows a) r ||| rowOf (packRows b) r ∧
    rowOf (packRows (a &&& b)) r = rowOf (packRows a) r &&& rowOf (packRows b) r ∧
    rowOf (packRows (a ^^^ b)) r = rowOf (packRows a) r ^^^ rowOf (packRows b) r ∧
    rowOf (packRows (~~~a)) r = ~~~(rowOf (packRows a) r)) ∧
  (∀ (mask : Mask) (r : BitVec 2), rowOf (packRows mask) r =
    ((List.range 32).map fun n =>
      if mask.getLsbD (31 - n) then rowOf (packRows (bitOf (BitVec.ofNat 5 n))) r else 0x00#8).foldl (· ||| ·) 0x00#8) ∧
  (∀ (i : BitVec 5) (r : BitVec 2) (b : Nat),
    (rowOf (packRows (bitOf i)) r).getLsbD b = true ↔ r = (mapCoord i).row ∧ b = 7 - (mapCoord i).col.toNat)

/-- R129: the contract of PACK with MAP: the row bit that MAP addresses for lamp `i` is bit `31 - i` of the mask. Both sides
are read from the units' outputs after the two evaluations. -/
def Obligations.PackAgreesWithMap : Prop :=
  ∀ (mask : Mask) (i : BitVec 5) (s : State), ∃ t u c,
    exec (.pack mask) s = .next t ∧ exec (.map (i.setWidth 8)) t = .next u ∧ u.mapper.out = .ok c ∧
    (rowOf u.packer.out c.row).getLsbD (7 - c.col.toNat) = mask.getLsbD (31 - i.toNat)

/-! ### FILL -/

/-- R140: FILL of every word, with the frame: nothing but the FILLER's ports changes. -/
def Obligations.FillResult : Prop :=
  ∀ (k : IdxWord) (s : State),
    exec (.fill k) s = .next { s with
      filler := { k := k,
                  out := if k.toNat ≤ 31 then .ok (0xFFFFFFFF#32 <<< (31 - k.toNat)) else .indexOutOfRange } }

/-- R144: a `k` out of range gives the error, no mask, and `fill_err = 1`; nothing else changes. -/
def Obligations.FillRejectsOutOfRange : Prop :=
  ∀ (k : IdxWord) (s : State), 32 ≤ k.toNat →
    ∃ t, exec (.fill k) s = .next t ∧ t = { s with filler := { k := k, out := .indexOutOfRange } } ∧ t.fillErr = true

/-- R142: bit `b` of FILL(k) is 1 exactly when `b >= 31 - k`, and the three closed forms give the same mask. -/
def Obligations.FillIsThermometer : Prop :=
  ∀ n : BitVec 5, ∃ m : Mask, fillWord (n.setWidth 8) = .ok m ∧
    (∀ b, b < 32 → (m.getLsbD b = true ↔ 31 - n.toNat ≤ b)) ∧
    m = 0xFFFFFFFF#32 <<< (31 - n.toNat) ∧
    m = ~~~((1#32 <<< (31 - n.toNat)) - 1#32) ∧
    m = ((List.range (n.toNat + 1)).map fun i => bitOf (BitVec.ofNat 5 i)).foldl (· ||| ·) 0#32

/-- R141: FILL(k) is `0x80000000` shifted right arithmetically by `k`. -/
def Obligations.FillIsArithmeticShift : Prop :=
  ∀ n : BitVec 5, fillWord (n.setWidth 8) = .ok (asr32 0x80000000#32 n.toNat) ∧ fillMaskSigned n = fillMask n

/-- R223: FILL(k) lights `k + 1` lamps; `n` lamps, `n` from 1 to 32, are had with `k = n - 1`; no `k` gives zero lamps. -/
def Obligations.FillCountsFromZero : Prop :=
  (∀ k : BitVec 5, ((List.range 32).filter fun b => (fillMask k).getLsbD b).length = k.toNat + 1 ∧ fillMask k ≠ 0#32) ∧
  (∀ n, 1 ≤ n → n ≤ 32 → ((List.range 32).filter fun b => (fillMask (BitVec.ofNat 5 (n - 1))).getLsbD b).length = n)

/-- R145: the rows that PACK makes of FILL(k), read through MAP, light exactly lamps 0 to `k`. -/
def Obligations.PackOfFillLightsArc : Prop :=
  ∀ (k i : BitVec 5) (s : State), ∃ t u v m c,
    exec (.fill (k.setWidth 8)) s = .next t ∧ t.filler.out = .ok m ∧ exec (.pack m) t = .next u ∧
    exec (.map (i.setWidth 8)) u = .next v ∧ v.mapper.out = .ok c ∧
    ((rowOf v.packer.out c.row).getLsbD (7 - c.col.toNat) = true ↔ i.toNat ≤ k.toNat)

/-! ### The units together -/

/-- R21: the result of an evaluation is a function of its own input: from any two states it is the same. -/
def Obligations.ResultsIgnoreState : Prop :=
  ∀ (i : Instr) (s s' : State), ∃ t t', exec i s = .next t ∧ exec i s' = .next t' ∧ replyTo i t = replyTo i t'

/-- R70, R185: evaluations of different units do not affect each other: they commute, errors included. -/
def Obligations.UnitsAreIndependent : Prop :=
  ∀ (i j : Instr) (s : State), (encode i).1 ≠ (encode j).1 →
    ∃ t u v, exec i s = .next t ∧ exec j t = .next u ∧ exec j s = .next v ∧ exec i v = .next u ∧
      replyTo i u = replyTo i t ∧ replyTo j u = replyTo j v

/-- R184: an error is not latched: after any word on the same port, legal or not, an evaluation leaves the state it leaves
without it; a word that fits gives its result, with the error bit at 0. -/
def Obligations.ErrorsDoNotStick : Prop :=
  ∀ (i j : Instr) (s : State), (encode i).1 = (encode j).1 →
    ∃ t u, exec i s = .next t ∧ exec j t = .next u ∧ exec j s = .next u ∧
      (j.wellFormed = true → replyTo j u ≠ .indexOutOfRange ∧
        (∀ word, j = .map word → u.mapErr = false) ∧ (∀ word, j = .fill word → u.fillErr = false))

/-- R77: the error bits of MAP and FILL: 1 means that the operation failed, 0 that the data outputs hold the result. -/
def Obligations.ErrorBitSaysWhatOutputsHold : Prop :=
  ∀ s : State,
    (s.mapErr = true ↔ s.mapper.out = .indexOutOfRange) ∧
    (s.mapErr = false → s.mapper.out = .ok { row := s.mapRow, col := s.mapCol }) ∧
    (s.fillErr = true ↔ s.filler.out = .indexOutOfRange) ∧
    (s.fillErr = false → s.filler.out = .ok s.fillMaskPin)

/-- R13: `bitOf(i)` is `1 << (31 - i)` and has exactly one bit set, bit `31 - i`. -/
def Obligations.BitOfIsOneBit : Prop :=
  ∀ i : BitVec 5, bitOf i = 1#32 <<< (31 - i.toNat) ∧ ∀ b, (bitOf i).getLsbD b = true ↔ b = 31 - i.toNat

/-! ### The Display Driver -/

/-- R44: `DrvWrite` replaces all 8 bits of one row and changes no other byte and nothing else. -/
def Obligations.DrvWriteEffect : Prop :=
  ∀ (chip row : Int) (v : Byte) (s : State), hasChip s.params chip = true → isRow row = true →
    ∃ t, drvCall (.write chip row v) s = .next t ∧ t = { s with ram := t.ram } ∧ t.rowByte chip row = v ∧
      ∀ a, a ≠ rowAddr chip row → t.ram.read? a = s.ram.read? a

/-- R45, R47: `DrvSetLamp` sets bit `7 - col` of one row to `lit`, keeps the row's other seven bits and every other byte, and
changes nothing else; whatever the row held, a byte that nothing has written included. -/
def Obligations.DrvSetLampEffect : Prop :=
  ∀ (chip row col : Int) (lit : Bool) (s : State),
    s.params.hasSetLamp = true → hasChip s.params chip = true → isRow row = true → isCol col = true →
    ∃ t, drvCall (.setLamp chip row col lit) s = .next t ∧ t = { s with ram := t.ram } ∧
      (t.rowByte chip row).getLsbD (7 - col.toNat) = lit ∧
      (∀ b, b ≠ 7 - col.toNat → (t.rowByte chip row).getLsbD b = (s.rowByte chip row).getLsbD b) ∧
      ∀ a, a ≠ rowAddr chip row → t.ram.read? a = s.ram.read? a

/-- R46: `DrvClear` makes every row of the chip 0, rows 4 to 7 included, and changes nothing else. -/
def Obligations.DrvClearEffect : Prop :=
  ∀ (chip : Int) (s : State), hasChip s.params chip = true →
    ∃ t, drvCall (.clear chip) s = .next t ∧ t = { s with ram := t.ram } ∧
      (∀ row : Int, 0 ≤ row → row < 8 → t.rowByte chip row = 0x00#8) ∧
      ∀ a, (∀ row : Int, 0 ≤ row → row < 8 → a ≠ rowAddr chip row) → t.ram.read? a = s.ram.read? a

/-- R42, R51: a call that names a chip, row or column that does not exist is refused, by name. R162, U7: where the driver does
not offer the optional `DrvSetLamp`, a call on it is refused by the name noSetLamp, whatever it names (the model's choice, log
entry 11). -/
def Obligations.DriverRefusesWhatDoesNotExist : Prop :=
  (∀ (chip row col : Int) (v : Byte) (lit : Bool) (s : State), ¬ (0 ≤ chip ∧ chip < s.params.nChips) →
    drvCall (.write chip row v) s = .refused (.noSuchChip chip) ∧
    (s.params.hasSetLamp = true → drvCall (.setLamp chip row col lit) s = .refused (.noSuchChip chip)) ∧
    drvCall (.clear chip) s = .refused (.noSuchChip chip)) ∧
  (∀ (chip row col : Int) (v : Byte) (lit : Bool) (s : State), hasChip s.params chip = true → ¬ (0 ≤ row ∧ row < 4) →
    drvCall (.write chip row v) s = .refused (.noSuchRow row) ∧
    (s.params.hasSetLamp = true → drvCall (.setLamp chip row col lit) s = .refused (.noSuchRow row))) ∧
  (∀ (chip row col : Int) (lit : Bool) (s : State), hasChip s.params chip = true → 0 ≤ row ∧ row < 4 →
    ¬ (0 ≤ col ∧ col < 8) → s.params.hasSetLamp = true →
    drvCall (.setLamp chip row col lit) s = .refused (.noSuchColumn col)) ∧
  (∀ (chip row col : Int) (lit : Bool) (s : State), s.params.hasSetLamp = false →
    drvCall (.setLamp chip row col lit) s = .refused .noSetLamp)

/-- R42: stores of different chips are disjoint: a call on one chip changes no byte of another. -/
def Obligations.ChipsAreDisjoint : Prop :=
  ∀ (call : DrvCall) (s t : State) (chip other row : Int), drvCall call s = .next t →
    (call = .clear chip ∨ (∃ r v, call = .write chip r v) ∨ ∃ r c l, call = .setLamp chip r c l) →
    0 ≤ other → other ≠ chip → 0 ≤ row → row < 8 → t.ram.read? (rowAddr other row) = s.ram.read? (rowAddr other row)

/-- R52: each of the three calls is idempotent: the same call again changes nothing more. The canonical
form of the memory in the premise is the model's (log entry 5). -/
def Obligations.CallsAreIdempotent : Prop :=
  ∀ (call : DrvCall) (s t : State), Memory.wf s.ram → drvCall call s = .next t → drvCall call t = .next t

/-! ### A step -/

/-- R23, R79: when the bytes that the next request puts on a port are read as an operation, the step is that operation's
`exec`, from the state in which the request has been taken up, and the reply goes to the caller; when they are no word of the
port (R70, R83), the step is refused by the name notAPortWord, with the decoder's reason. One request a step, the reply, and
the refusal of bytes of another length are the model's (log entries 9, 15, 1). -/
def Obligations.StepRunsDecodedWord : Prop :=
  ∀ (s : State) (c : Nat) (port : Port) (bytes : List Byte), s.fetch = some (c, .word port bytes) →
    (∀ i : Instr, decode port bytes = .ok i →
      ∃ t, exec i (s.take c) = .next t ∧ step s = .next (t.giveReply c (some (replyTo i t)))) ∧
    (∀ e : DecodeError, decode port bytes = .error e → step s = .refused (.notAPortWord e))

/-- R79: a bare table word placed where the step fetches is what the very next step runs. The port a bare word is read on and
the place of the request are the model's choice (log entries 2, 6). -/
def Obligations.FetchWordIsNext : Prop :=
  ∀ (s : State) (nbits w : Nat) (i : Instr), decodeTableWord nbits w = some i →
    ∃ c t, (s.withFetchWord nbits w).fetch = some (c, tableRequest nbits w) ∧
      exec i ((s.withFetchWord nbits w).take c) = .next t ∧
      step (s.withFetchWord nbits w) = .next (t.giveReply c (some (replyTo i t)))

/-- R161: UPDATE_FULL begins with PACK and then has the four writes to issue, row 0, 1, 2, 3, before the caller's later
requests. The order 0, 1, 2, 3 is what R161 calls this spec's choice (log entry 16, DEDUCED from R161). The
model's choices: a sequence in progress has no reply (log entry 15), and a sequence on a missing chip evaluates its unit and
is refused at its first call (log entry 20). -/
def Obligations.UpdateFullExpands : Prop :=
  ∀ (s : State) (c : Nat) (chip : Int) (mask : Mask), s.fetch = some (c, .updateFull chip mask) →
    ∃ t, step s = .next t ∧ t.packer = { mask := mask, out := packRows mask } ∧ t.ram = s.ram ∧
      t.callers = s.callers.modify c fun caller =>
        { pending := .call (.write chip 0 (packRows mask).row0) :: .call (.write chip 1 (packRows mask).row1) ::
            .call (.write chip 2 (packRows mask).row2) :: .call (.write chip 3 (packRows mask).row3) ::
            caller.pending.tail,
          reply := none }

/-- R162: UPDATE_LAMP begins with MAP and has one call to issue: `DrvSetLamp` at MAP's coordinate, or, where the driver lacks
it, one `DrvWrite` of the old row byte with bit `7 - col` set or cleared; where MAP raises, there is none. The
model's choices: the old row is read in this step (log entry 11), a sequence in progress has no reply (log entry 15), and a
sequence on a missing chip evaluates its unit first, reading the row included, and is refused at its first call (log entry
20). -/
def Obligations.UpdateLampExpands : Prop :=
  ∀ (s : State) (c : Nat) (chip : Int) (idx : IdxWord) (lit : Bool), s.fetch = some (c, .updateLamp chip idx lit) →
    ∃ t, step s = .next t ∧ t.ram = s.ram ∧ t.mapper = { idx := idx, out := mapWord idx } ∧
      (∀ place, mapWord idx = .ok place → ∃ call : DrvCall,
        (t.callers = s.callers.modify c fun caller =>
          { pending := .call call :: caller.pending.tail, reply := none }) ∧
        (s.params.hasSetLamp = true → call = .setLamp chip place.row.toNat place.col.toNat lit) ∧
        (s.params.hasSetLamp = false → ∃ v : Byte, call = .write chip place.row.toNat v ∧
          ∀ b, v.getLsbD b =
            if b = 7 - place.col.toNat then lit else (s.rowByte chip place.row.toNat).getLsbD b)) ∧
      (mapWord idx = .indexOutOfRange →
        t.callers = s.callers.modify c fun caller =>
          { pending := caller.pending.tail, reply := some .indexOutOfRange })

/-- R163: UPDATE_ARC begins with FILL and goes on as UPDATE_FULL of its mask; where FILL raises, there is nothing to go on
with. The model's choices: a sequence in progress has no reply (log entry 15), and a sequence on a missing chip evaluates its
units and is refused at its first call (log entry 20). -/
def Obligations.UpdateArcExpands : Prop :=
  ∀ (s : State) (c : Nat) (chip : Int) (k : IdxWord), s.fetch = some (c, .updateArc chip k) →
    ∃ t, step s = .next t ∧ t.ram = s.ram ∧ t.filler.k = k ∧
      (k.toNat ≤ 31 → t.filler.out = .ok (0xFFFFFFFF#32 <<< (31 - k.toNat)) ∧
        t.callers = s.callers.modify c fun caller =>
          { pending := .updateFull chip (0xFFFFFFFF#32 <<< (31 - k.toNat)) :: caller.pending.tail, reply := none }) ∧
      (32 ≤ k.toNat → t.filler.out = .indexOutOfRange ∧
        t.callers = s.callers.modify c fun caller =>
          { pending := caller.pending.tail, reply := some .indexOutOfRange })

/-- R168: the recomputing form takes MAP of the index and PACK of the held mask with that lamp lit or darkened, in every state,
and has one call to issue: `DrvWrite` of the row that MAP names, with PACK's byte for it; no other row of PACK differs. Where
MAP raises, there is none, and PACK is not evaluated. The model's choices: one request and one step for both evaluations, and
no PACK under an error (log entry 12), no reply while in progress (log entry 15), and the refusal of a missing chip at the
call (log entry 20). -/
def Obligations.RecomputeLampExpands : Prop :=
  ∀ (s : State) (c : Nat) (chip : Int) (held : Mask) (idx : IdxWord) (lit : Bool),
    s.fetch = some (c, .recomputeLamp chip held idx lit) →
    ∃ t, step s = .next t ∧ t.ram = s.ram ∧ t.mapper = { idx := idx, out := mapWord idx } ∧
      (∀ place mask, mapWord idx = .ok place →
        mask = (if lit then held ||| bitOf (indexOf idx) else held &&& ~~~bitOf (indexOf idx)) →
        t.packer = { mask := mask, out := packRows mask } ∧
        (t.callers = s.callers.modify c fun caller =>
          { pending := .call (.write chip place.row.toNat (rowOf (packRows mask) place.row)) :: caller.pending.tail,
            reply := none }) ∧
        ∀ r, r ≠ place.row → rowOf (packRows mask) r = rowOf (packRows held) r) ∧
      (mapWord idx = .indexOutOfRange → t.packer = s.packer ∧
        t.callers = s.callers.modify c fun caller =>
          { pending := caller.pending.tail, reply := some .indexOutOfRange })

/-- Derived from R164, R186: an error in an update sequence issues no call: the row store is unchanged, the sequence is over,
and the error goes to the caller; no other caller is touched. R164 names UPDATE_LAMP and UPDATE_ARC. The model's choices: the
recomputing form is a request of the same kind (log entry 12), the reply is a field of the caller (log entry 15), and the
error comes before the refusal where the chip is missing too (log entry 20). -/
def Obligations.ErrorIssuesNoCall : Prop :=
  ∀ (s : State) (c : Nat) (chip : Int) (held : Mask) (word : IdxWord) (lit : Bool), 32 ≤ word.toNat →
    (s.fetch = some (c, .updateLamp chip word lit) ∨ s.fetch = some (c, .updateArc chip word) ∨
      s.fetch = some (c, .recomputeLamp chip held word lit)) →
    ∃ t, step s = .next t ∧ t.ram = s.ram ∧
      t.callers = s.callers.modify c fun caller =>
        { pending := caller.pending.tail, reply := some .indexOutOfRange }

/-- R40, R174: only a Display Driver call changes the row store: no evaluation of a unit and no start of a sequence does. -/
def Obligations.OnlyDriverCallsStore : Prop :=
  ∀ (s t : State), step s = .next t → (∀ c d, s.fetch ≠ some (c, .call d)) → t.ram = s.ram

/-- R167: rows 4 to 7 of every chip change only by `DrvClear`, whoever issues what in whatever order. -/
def Obligations.OuterRowsOnlyCleared : Prop :=
  ∀ (s t : State), step s = .next t → (∀ c chip, s.fetch ≠ some (c, .call (.clear chip))) →
    ∀ chip row : Int, 0 ≤ chip → 4 ≤ row → row < 8 →
      t.ram.read? (rowAddr chip row) = s.ram.read? (rowAddr chip row)

/-- R165: no sequence clears: a step from a state with no `DrvClear` pending leaves none pending, whatever sequence it
begins or goes on with. -/
def Obligations.NoSequenceClears : Prop :=
  ∀ s t : State, NoClearPending s → step s = .next t → NoClearPending t

/-- R29, R55: a step never changes the parameters, takes one turn, and touches no caller but the one it serves. Turns and
schedule are the model's (log entry 9), and so is a step with nothing asked (log entry 17). -/
def Obligations.StepServesOneCaller : Prop :=
  ∀ (s t : State), step s = .next t →
    t.params = s.params ∧
    (s.fetch = none → t = s) ∧
    (∀ c r, s.fetch = some (c, r) → t.turn = s.turn + 1 ∧ t.schedule = s.schedule.tail ∧
      t.callers.length = s.callers.length ∧ ∀ other, other ≠ c → t.callers[other]? = s.callers[other]?)

/-- R55: the order among callers is not fixed: whichever caller has a request pending, some schedule lets it move next. The
form of the schedule is the model's (log entry 9). -/
def Obligations.EveryReadyCallerCanMoveNext : Prop :=
  ∀ (s : State) (c : Nat), (∃ caller, s.callers[c]? = some caller ∧ caller.pending ≠ []) →
    ∃ k, ∀ later, ({ s with schedule := k :: later } : State).chosen = some c

/-! ### Invariants -/

/-- What holds before anything is asked. The values are the model's choice (log entries 3, 4, 5): the spec gives the block no
reset and the row store no contents. -/
def Obligations.ResetIsGood : Prop :=
  PortsSettled State.reset ∧ StoreInBounds State.reset ∧ AllAdmissible State.reset ∧ 1 ≤ State.reset.params.nChips ∧
    ∀ a, State.reset.ram.read? a = none

/-- R21, R71, R211: from every state whose ports are settled, a step leaves them settled: every output stays the function of
the word on its own port. That State holds the ports is the model's choice (log entry 18). -/
def Obligations.PortsStaySettled : Prop :=
  ∀ s t : State, PortsSettled s → step s = .next t → PortsSettled t

/-- Derived from R41: from every state whose row store is in canonical form and lists only rows of chips that exist, a step
leaves it so. R41 gives the chips and rows there are. The canonical form, the strictly rising list of the bytes written, is
the model's choice (log entry 5), and so is the number that stands for a chip and row in the bound (log entry 13). -/
def Obligations.StoreStaysInBounds : Prop :=
  ∀ s t : State, StoreInBounds s → step s = .next t → StoreInBounds t

/-- R51, R187: a machine whose pending requests name what exists never stops, errors of MAP and FILL included, and what its
update sequences issue names what exists too. -/
def Obligations.AdmissibleNeverStops : Prop :=
  ∀ s : State, AllAdmissible s → ∃ t, step s = .next t ∧ AllAdmissible t

/-! ### Update sequences on the row store -/

/-- R62, R45, R162: a single-lamp update runs, lights or darkens its lamp and keeps the other 31 and every other byte, whether
or not the driver has `setLamp`. The count of two steps is the model's (log entry 9). -/
def Obligations.UpdateLampChangesOneLamp : Prop :=
  ∀ (s : State) (chip : Int) (i : BitVec 5) (lit : Bool) (rest : List Request) (reply : Option Reply),
    hasChip s.params chip = true →
    s.callers = [{ pending := .updateLamp chip (i.setWidth 8) lit :: rest, reply := reply }] →
    ∃ t, steps 2 s = some t ∧ t.callers = [{ pending := rest, reply := some .done }] ∧
      (∀ j, t.lit chip j = if j = i then lit else s.lit chip j) ∧
      ∀ a, (∀ row : Int, isRow row = true → a ≠ rowAddr chip row) → t.ram.read? a = s.ram.read? a

/-- R161, R165, R167: a full-state update that no other caller comes between takes five steps, leaves PACK of its mask in rows
0 to 3 whatever they held, and changes no other byte. The count of steps is the model's (log entry 9). -/
def Obligations.UpdateFullWritesPack : Prop :=
  ∀ (s : State) (chip : Int) (mask : Mask) (rest : List Request) (reply : Option Reply),
    hasChip s.params chip = true →
    s.callers = [{ pending := .updateFull chip mask :: rest, reply := reply }] →
    ∃ t, steps 5 s = some t ∧ ringRows t chip = packRows mask ∧
      t.callers = [{ pending := rest, reply := some .done }] ∧
      ∀ a, (∀ row : Int, isRow row = true → a ≠ rowAddr chip row) → t.ram.read? a = s.ram.read? a

/-- Derived from R166, the core correctness contract: after UPDATE_FULL(chip, m), `Lit(chip, i) = m[31 - i]` for every lamp,
whatever the rows held before; and the 32 single-lamp updates `UPDATE_LAMP(chip, i, m[31 - i])`, in any order and from any
other starting contents, leave the same four row bytes, with either form of the single-lamp update. The frame, every byte
outside rows 0 to 3 of the chip unchanged, is R167's. The counts of 5 and 64 steps are the model's (log entry 9). -/
def Obligations.FullUpdateEqualsLampUpdates : Prop :=
  ∀ (s s' : State) (chip : Int) (mask : Mask) (order : List (BitVec 5)),
    hasChip s.params chip = true → hasChip s'.params chip = true → order.length = 32 → (∀ i, i ∈ order) →
    ∃ t t',
      steps 5 { s with callers := [{ pending := [.updateFull chip mask], reply := none }] } = some t ∧
      steps 64 { s' with
        callers := [{ pending := order.map fun i => .updateLamp chip (i.setWidth 8) (mask.getLsbD (31 - i.toNat)),
                      reply := none }] } = some t' ∧
      (∀ i : BitVec 5, t.lit chip i = mask.getLsbD (31 - i.toNat)) ∧
      ringRows t chip = packRows mask ∧ ringRows t' chip = packRows mask ∧
      (∀ caller ∈ t.callers, caller.pending = []) ∧ (∀ caller ∈ t'.callers, caller.pending = []) ∧
      ∀ a, (∀ row : Int, isRow row = true → a ≠ rowAddr chip row) →
        t.ram.read? a = s.ram.read? a ∧ t'.ram.read? a = s'.ram.read? a

/-- R167: the four writes of a full-state update leave the same store in every order. The canonical form of the
memory in the premise is the model's (log entry 5). -/
def Obligations.FullWriteOrderDoesNotMatter : Prop :=
  ∀ (s : State) (chip : Int) (rows : Rows) (order : List DrvCall), Memory.wf s.ram → hasChip s.params chip = true →
    order.Perm [.write chip 0 rows.row0, .write chip 1 rows.row1, .write chip 2 rows.row2, .write chip 3 rows.row3] →
    ∃ t, runCalls order s = some t ∧
      runCalls [.write chip 0 rows.row0, .write chip 1 rows.row1, .write chip 2 rows.row2, .write chip 3 rows.row3] s
        = some t

/-- Derived from R169: after UPDATE_ARC(chip, k), exactly lamps 0 to `k` are lit. The frame, every byte outside rows 0 to 3 of
the chip unchanged, is R167's. The count of six steps is the model's (log entry 9). -/
def Obligations.UpdateArcShowsArc : Prop :=
  ∀ (s : State) (chip : Int) (k : BitVec 5) (rest : List Request) (reply : Option Reply),
    hasChip s.params chip = true →
    s.callers = [{ pending := .updateArc chip (k.setWidth 8) :: rest, reply := reply }] →
    ∃ t, steps 6 s = some t ∧ (∀ i : BitVec 5, t.lit chip i = true ↔ i.toNat ≤ k.toNat) ∧
      t.callers = [{ pending := rest, reply := some .done }] ∧
      ∀ a, (∀ row : Int, isRow row = true → a ≠ rowAddr chip row) → t.ram.read? a = s.ram.read? a

/-- Derived from R168: where rows 0 to 3 hold PACK of the mask the caller holds, the recomputing form leaves PACK of the
changed mask. Only the one row that MAP names is written: every other byte of the store reads as before. That two steps
complete it rests on the model's choices: MAP and PACK of the changed mask in one step of one request (log entry 12), and one
driver call a step (log entry 9). -/
def Obligations.RecomputedLampWritesPack : Prop :=
  ∀ (s : State) (chip : Int) (held : Mask) (i : BitVec 5) (lit : Bool) (rest : List Request) (reply : Option Reply),
    hasChip s.params chip = true → ringRows s chip = packRows held →
    s.callers = [{ pending := .recomputeLamp chip held (i.setWidth 8) lit :: rest, reply := reply }] →
    ∃ t, steps 2 s = some t ∧ ringRows t chip = packRows (withLamp held i lit) ∧
      t.callers = [{ pending := rest, reply := some .done }] ∧
      ∀ a, a ≠ rowAddr chip (mapCoord i).row.toNat → t.ram.read? a = s.ram.read? a

/-- R53, R55: two callers' full-state updates of one chip, in every interleaving: each of the four rows ends as one caller's
or the other's, and no other byte can appear. One request a step, and so the count
of ten, is the model's (log entry 9). -/
def Obligations.InterleavedUpdatesMixWholeRows : Prop :=
  ∀ (s : State) (chip : Int) (a b : Mask) (replyA replyB : Option Reply), hasChip s.params chip = true →
    s.callers = [{ pending := [.updateFull chip a], reply := replyA }, { pending := [.updateFull chip b], reply := replyB }] →
    ∃ t, steps 10 s = some t ∧ (∀ caller ∈ t.callers, caller.pending = []) ∧
      ∀ r : BitVec 2, rowOf (ringRows t chip) r = rowOf (packRows a) r ∨ rowOf (ringRows t chip) r = rowOf (packRows b) r

/-- R55, R218: with the masks 0xFFFF0000 and 0x0000FFFF all 16 combinations of whole rows can be the end: the block does not
keep a full-state update together. The model's choices: the schedule and
the count of ten steps (log entry 9), and State.reset with its one chip (log entry 4). -/
def Obligations.EveryMixtureIsReachable : Prop :=
  ∀ pick : BitVec 4, ∃ (schedule : List Nat) (t : State),
    steps 10 { State.reset with
      callers := [{ pending := [.updateFull 0 0xFFFF0000#32], reply := none },
                  { pending := [.updateFull 0 0x0000FFFF#32], reply := none }]
      schedule := schedule } = some t ∧
    ∀ r : BitVec 2, rowOf (ringRows t 0) r = if pick.getLsbD r.toNat then 0xF0#8 else 0x0F#8
end

