-- ==== Sys2Proof/Laws/Memory.lean ====
section
/-! SUPPORT. The laws of the row store: a read gives what was written last, a write leaves every other address alone, and every
write keeps the canonical form. -/

namespace Sys2Proof.Machine

theorem Memory.read?_write_same (m : Memory) (a : Nat) (v : Byte) : (m.write a v).read? a = some v := by
  induction m with
  | nil => simp [Memory.write, Memory.read?]
  | cons cell rest ih =>
    simp only [Memory.write]
    split
    · simp [Memory.read?]
    · split
      · simp [Memory.read?]
      · next h => simp [Memory.read?, h, ih]

theorem Memory.read?_write_other (m : Memory) {a b : Nat} (v : Byte) (h : b ≠ a) :
    (m.write a v).read? b = m.read? b := by
  induction m with
  | nil => simp [Memory.write, Memory.read?, h]
  | cons cell rest ih =>
    simp only [Memory.write]
    split
    · simp [Memory.read?, h]
    · split
      · next ha => subst ha; simp [Memory.read?, h]
      · simp [Memory.read?, ih]

theorem Memory.read?_write (m : Memory) (a b : Nat) (v : Byte) :
    (m.write a v).read? b = if b = a then some v else m.read? b := by
  split
  · next h => subst h; exact m.read?_write_same b v
  · next h => exact m.read?_write_other v h

@[simp] theorem Memory.byteAt_write_same (m : Memory) (a : Nat) (v : Byte) : (m.write a v).byteAt a = v := by
  simp [Memory.byteAt, Memory.read?_write_same]

theorem Memory.byteAt_write_other (m : Memory) {a b : Nat} (v : Byte) (h : b ≠ a) :
    (m.write a v).byteAt b = m.byteAt b := by
  simp [Memory.byteAt, Memory.read?_write_other m v h]

theorem Memory.byteAt_write (m : Memory) (a b : Nat) (v : Byte) :
    (m.write a v).byteAt b = if b = a then v else m.byteAt b := by
  split
  · next h => subst h; simp
  · next h => exact m.byteAt_write_other v h

/-- Every cell of a memory after a write is the written one or was there before. -/
theorem Memory.mem_write {m : Memory} {a : Nat} {v : Byte} {cell : Host.Cell} (h : cell ∈ m.write a v) :
    cell = (a, v) ∨ cell ∈ m := by
  induction m with
  | nil => simpa [Memory.write] using h
  | cons head rest ih =>
    simp only [Memory.write] at h
    split at h
    · simpa using h
    · split at h
      · rcases List.mem_cons.mp h with h | h
        · exact .inl h
        · exact .inr (List.mem_cons_of_mem _ h)
      · rcases List.mem_cons.mp h with h | h
        · exact .inr (h ▸ List.mem_cons_self)
        · exact (ih h).imp_right (List.mem_cons_of_mem _)

/-- A write keeps the canonical form. -/
theorem Memory.write_wf {m : Memory} (h : Memory.wf m) (a : Nat) (v : Byte) : Memory.wf (m.write a v) := by
  induction m with
  | nil => simp [Memory.write, Memory.wf]
  | cons head rest ih =>
    obtain ⟨hhead, hrest⟩ := List.pairwise_cons.mp h
    simp only [Memory.write]
    split
    · next hlt =>
      refine List.pairwise_cons.mpr ⟨fun cell hc => ?_, h⟩
      rcases List.mem_cons.mp hc with rfl | hc
      · exact hlt
      · exact Nat.lt_trans hlt (hhead cell hc)
    · split
      · next ha => subst ha; exact List.pairwise_cons.mpr ⟨hhead, hrest⟩
      · next hlt hne =>
        refine List.pairwise_cons.mpr ⟨fun cell hc => ?_, ih hrest⟩
        rcases Memory.mem_write hc with rfl | hc
        · show head.1 < a
          omega
        · exact hhead cell hc

/-- `fillBytes` keeps the canonical form. -/
theorem Memory.fillBytes_wf {m : Memory} (h : Memory.wf m) (a : Nat) (v : Byte) (n : Nat) :
    Memory.wf (m.fillBytes a v n) := by
  induction n with
  | zero => exact h
  | succ n ih => exact Memory.write_wf ih _ _

/-- `fillBytes` writes the addresses `a` to `a + n - 1` and no other. -/
theorem Memory.read?_fillBytes (m : Memory) (a : Nat) (v : Byte) (n b : Nat) :
    (m.fillBytes a v n).read? b = if a ≤ b ∧ b < a + n then some v else m.read? b := by
  induction n with
  | zero =>
    rw [Memory.fillBytes, if_neg (by omega)]
  | succ n ih =>
    rw [Memory.fillBytes, Memory.read?_write, ih]
    split
    · next h => subst h; simp
    · next h =>
      by_cases hb : a ≤ b ∧ b < a + n
      · rw [if_pos hb, if_pos ⟨hb.1, by omega⟩]
      · rw [if_neg hb, if_neg (by omega)]

theorem Memory.byteAt_fillBytes (m : Memory) (a : Nat) (v : Byte) (n b : Nat) :
    (m.fillBytes a v n).byteAt b = if a ≤ b ∧ b < a + n then v else m.byteAt b := by
  rw [Memory.byteAt, Memory.read?_fillBytes]
  split <;> simp [Memory.byteAt]

theorem Memory.mem_fillBytes {m : Memory} {a n : Nat} {v : Byte} {cell : Host.Cell}
    (h : cell ∈ m.fillBytes a v n) : (a ≤ cell.1 ∧ cell.1 < a + n) ∨ cell ∈ m := by
  induction n with
  | zero => exact .inr h
  | succ n ih =>
    rcases Memory.mem_write h with rfl | h
    · exact .inl ⟨by simp, by simp⟩
    · rcases ih h with h | h
      · exact .inl ⟨h.1, by omega⟩
      · exact .inr h

/-- Below the first listed address a memory lists nothing. -/
theorem Memory.read?_eq_none {m : Memory} {a : Nat} (h : ∀ cell ∈ m, a < cell.1) : m.read? a = none := by
  induction m with
  | nil => rfl
  | cons cell rest ih =>
    have hne : a ≠ cell.1 := Nat.ne_of_lt (h cell List.mem_cons_self)
    rw [Memory.read?, if_neg hne, ih fun x hx => h x (List.mem_cons_of_mem _ hx)]

/-- In canonical form, memories that read the same are the same list. -/
theorem Memory.ext_read? {m n : Memory} (hm : Memory.wf m) (hn : Memory.wf n) (h : ∀ a, m.read? a = n.read? a) :
    m = n := by
  induction m generalizing n with
  | nil =>
    cases n with
    | nil => rfl
    | cons d q => simpa [Memory.read?] using h d.1
  | cons c r ih =>
    cases n with
    | nil => simpa [Memory.read?] using h c.1
    | cons d q =>
      obtain ⟨hr, hrwf⟩ := List.pairwise_cons.mp hm
      obtain ⟨hq, hqwf⟩ := List.pairwise_cons.mp hn
      have hkey : c.1 = d.1 := by
        rcases Nat.lt_trichotomy c.1 d.1 with hlt | heq | hgt
        · have hnone : Memory.read? (d :: q) c.1 = none := Memory.read?_eq_none fun x hx => by
            rcases List.mem_cons.mp hx with rfl | hx
            · exact hlt
            · exact hlt.trans (hq x hx)
          have habs := (h c.1).trans hnone
          simp [Memory.read?] at habs
        · exact heq
        · have hnone : Memory.read? (c :: r) d.1 = none := Memory.read?_eq_none fun x hx => by
            rcases List.mem_cons.mp hx with rfl | hx
            · exact hgt
            · exact hgt.trans (hr x hx)
          have habs := hnone.symm.trans (h d.1)
          simp [Memory.read?] at habs
      have hval : c.2 = d.2 := by simpa [Memory.read?, hkey] using h c.1
      obtain rfl : c = d := Prod.ext hkey hval
      congr 1
      refine ih hrwf hqwf fun a => ?_
      by_cases ha : a = c.1
      · subst ha
        rw [Memory.read?_eq_none hr, Memory.read?_eq_none hq]
      · simpa [Memory.read?, ha] using h a

/-- Rows of a chip do not share an address. -/
theorem rowAddr_inj {chip row chip' row' : Int} (hc : 0 ≤ chip) (hc' : 0 ≤ chip') (hr : 0 ≤ row ∧ row < 8)
    (hr' : 0 ≤ row' ∧ row' < 8) (h : rowAddr chip row = rowAddr chip' row') : chip = chip' ∧ row = row' := by
  simp only [rowAddr, Config.chipRows] at h
  omega

end Sys2Proof.Machine
end

