-- ==== Sys2Proof/Laws/State.lean ====
section
/-! SUPPORT. One lemma for each field under each update of the state, so that no proof unfolds a record update. -/

namespace Sys2Proof.Machine

variable (s : State)

@[simp] theorem driveMapper_params (idx : IdxWord) (out : Result Coord) :
    (s.driveMapper idx out).params = s.params := rfl
@[simp] theorem driveMapper_mapper (idx : IdxWord) (out : Result Coord) :
    (s.driveMapper idx out).mapper = { idx := idx, out := out } := rfl
@[simp] theorem driveMapper_packer (idx : IdxWord) (out : Result Coord) :
    (s.driveMapper idx out).packer = s.packer := rfl
@[simp] theorem driveMapper_filler (idx : IdxWord) (out : Result Coord) :
    (s.driveMapper idx out).filler = s.filler := rfl
@[simp] theorem driveMapper_ram (idx : IdxWord) (out : Result Coord) :
    (s.driveMapper idx out).ram = s.ram := rfl
@[simp] theorem driveMapper_callers (idx : IdxWord) (out : Result Coord) :
    (s.driveMapper idx out).callers = s.callers := rfl
@[simp] theorem driveMapper_schedule (idx : IdxWord) (out : Result Coord) :
    (s.driveMapper idx out).schedule = s.schedule := rfl
@[simp] theorem driveMapper_turn (idx : IdxWord) (out : Result Coord) :
    (s.driveMapper idx out).turn = s.turn := rfl

@[simp] theorem drivePacker_params (mask : Mask) (out : Rows) :
    (s.drivePacker mask out).params = s.params := rfl
@[simp] theorem drivePacker_mapper (mask : Mask) (out : Rows) :
    (s.drivePacker mask out).mapper = s.mapper := rfl
@[simp] theorem drivePacker_packer (mask : Mask) (out : Rows) :
    (s.drivePacker mask out).packer = { mask := mask, out := out } := rfl
@[simp] theorem drivePacker_filler (mask : Mask) (out : Rows) :
    (s.drivePacker mask out).filler = s.filler := rfl
@[simp] theorem drivePacker_ram (mask : Mask) (out : Rows) :
    (s.drivePacker mask out).ram = s.ram := rfl
@[simp] theorem drivePacker_callers (mask : Mask) (out : Rows) :
    (s.drivePacker mask out).callers = s.callers := rfl
@[simp] theorem drivePacker_schedule (mask : Mask) (out : Rows) :
    (s.drivePacker mask out).schedule = s.schedule := rfl
@[simp] theorem drivePacker_turn (mask : Mask) (out : Rows) :
    (s.drivePacker mask out).turn = s.turn := rfl

@[simp] theorem driveFiller_params (k : IdxWord) (out : Result Mask) :
    (s.driveFiller k out).params = s.params := rfl
@[simp] theorem driveFiller_mapper (k : IdxWord) (out : Result Mask) :
    (s.driveFiller k out).mapper = s.mapper := rfl
@[simp] theorem driveFiller_packer (k : IdxWord) (out : Result Mask) :
    (s.driveFiller k out).packer = s.packer := rfl
@[simp] theorem driveFiller_filler (k : IdxWord) (out : Result Mask) :
    (s.driveFiller k out).filler = { k := k, out := out } := rfl
@[simp] theorem driveFiller_ram (k : IdxWord) (out : Result Mask) :
    (s.driveFiller k out).ram = s.ram := rfl
@[simp] theorem driveFiller_callers (k : IdxWord) (out : Result Mask) :
    (s.driveFiller k out).callers = s.callers := rfl
@[simp] theorem driveFiller_schedule (k : IdxWord) (out : Result Mask) :
    (s.driveFiller k out).schedule = s.schedule := rfl
@[simp] theorem driveFiller_turn (k : IdxWord) (out : Result Mask) :
    (s.driveFiller k out).turn = s.turn := rfl

@[simp] theorem putRow_params (chip row : Int) (v : Byte) :
    (s.putRow chip row v).params = s.params := rfl
@[simp] theorem putRow_mapper (chip row : Int) (v : Byte) :
    (s.putRow chip row v).mapper = s.mapper := rfl
@[simp] theorem putRow_packer (chip row : Int) (v : Byte) :
    (s.putRow chip row v).packer = s.packer := rfl
@[simp] theorem putRow_filler (chip row : Int) (v : Byte) :
    (s.putRow chip row v).filler = s.filler := rfl
@[simp] theorem putRow_ram (chip row : Int) (v : Byte) :
    (s.putRow chip row v).ram = s.ram.write (rowAddr chip row) v := rfl
@[simp] theorem putRow_callers (chip row : Int) (v : Byte) :
    (s.putRow chip row v).callers = s.callers := rfl
@[simp] theorem putRow_schedule (chip row : Int) (v : Byte) :
    (s.putRow chip row v).schedule = s.schedule := rfl
@[simp] theorem putRow_turn (chip row : Int) (v : Byte) :
    (s.putRow chip row v).turn = s.turn := rfl

@[simp] theorem updateCaller_params (c : Nat) (f : Caller → Caller) :
    (s.updateCaller c f).params = s.params := rfl
@[simp] theorem updateCaller_mapper (c : Nat) (f : Caller → Caller) :
    (s.updateCaller c f).mapper = s.mapper := rfl
@[simp] theorem updateCaller_packer (c : Nat) (f : Caller → Caller) :
    (s.updateCaller c f).packer = s.packer := rfl
@[simp] theorem updateCaller_filler (c : Nat) (f : Caller → Caller) :
    (s.updateCaller c f).filler = s.filler := rfl
@[simp] theorem updateCaller_ram (c : Nat) (f : Caller → Caller) :
    (s.updateCaller c f).ram = s.ram := rfl
@[simp] theorem updateCaller_callers (c : Nat) (f : Caller → Caller) :
    (s.updateCaller c f).callers = s.callers.modify c f := rfl
@[simp] theorem updateCaller_schedule (c : Nat) (f : Caller → Caller) :
    (s.updateCaller c f).schedule = s.schedule := rfl
@[simp] theorem updateCaller_turn (c : Nat) (f : Caller → Caller) :
    (s.updateCaller c f).turn = s.turn := rfl

@[simp] theorem giveReply_params (c : Nat) (reply : Option Reply) :
    (s.giveReply c reply).params = s.params := rfl
@[simp] theorem giveReply_mapper (c : Nat) (reply : Option Reply) :
    (s.giveReply c reply).mapper = s.mapper := rfl
@[simp] theorem giveReply_packer (c : Nat) (reply : Option Reply) :
    (s.giveReply c reply).packer = s.packer := rfl
@[simp] theorem giveReply_filler (c : Nat) (reply : Option Reply) :
    (s.giveReply c reply).filler = s.filler := rfl
@[simp] theorem giveReply_ram (c : Nat) (reply : Option Reply) :
    (s.giveReply c reply).ram = s.ram := rfl
@[simp] theorem giveReply_callers (c : Nat) (reply : Option Reply) :
    (s.giveReply c reply).callers = s.callers.modify c fun caller => { caller with reply := reply } := rfl
@[simp] theorem giveReply_schedule (c : Nat) (reply : Option Reply) :
    (s.giveReply c reply).schedule = s.schedule := rfl
@[simp] theorem giveReply_turn (c : Nat) (reply : Option Reply) :
    (s.giveReply c reply).turn = s.turn := rfl

@[simp] theorem continueWith_params (c : Nat) (rest : List Request) :
    (s.continueWith c rest).params = s.params := rfl
@[simp] theorem continueWith_mapper (c : Nat) (rest : List Request) :
    (s.continueWith c rest).mapper = s.mapper := rfl
@[simp] theorem continueWith_packer (c : Nat) (rest : List Request) :
    (s.continueWith c rest).packer = s.packer := rfl
@[simp] theorem continueWith_filler (c : Nat) (rest : List Request) :
    (s.continueWith c rest).filler = s.filler := rfl
@[simp] theorem continueWith_ram (c : Nat) (rest : List Request) :
    (s.continueWith c rest).ram = s.ram := rfl
@[simp] theorem continueWith_callers (c : Nat) (rest : List Request) :
    (s.continueWith c rest).callers = s.callers.modify c fun caller => { pending := rest ++ caller.pending, reply := none } := rfl
@[simp] theorem continueWith_schedule (c : Nat) (rest : List Request) :
    (s.continueWith c rest).schedule = s.schedule := rfl
@[simp] theorem continueWith_turn (c : Nat) (rest : List Request) :
    (s.continueWith c rest).turn = s.turn := rfl

@[simp] theorem take_params (c : Nat) :
    (s.take c).params = s.params := rfl
@[simp] theorem take_mapper (c : Nat) :
    (s.take c).mapper = s.mapper := rfl
@[simp] theorem take_packer (c : Nat) :
    (s.take c).packer = s.packer := rfl
@[simp] theorem take_filler (c : Nat) :
    (s.take c).filler = s.filler := rfl
@[simp] theorem take_ram (c : Nat) :
    (s.take c).ram = s.ram := rfl
@[simp] theorem take_callers (c : Nat) :
    (s.take c).callers = s.callers.modify c fun caller => { caller with pending := caller.pending.tail } := rfl
@[simp] theorem take_schedule (c : Nat) :
    (s.take c).schedule = s.schedule.tail := rfl
@[simp] theorem take_turn (c : Nat) :
    (s.take c).turn = s.turn + 1 := rfl

end Sys2Proof.Machine
end

