-- ==== Sys2Proof/Laws/Ops.lean ====
section
/-! SUPPORT. What each shared operation can do, said once: the operations of the units always answer, and each driver call that
answers names what exists and makes one known change. -/

namespace Sys2Proof.Machine

@[simp] theorem onNext_next (s : State) (f : State → Host.Outcome State Fault Refusal) : onNext (.next s) f = f s := rfl

@[simp] theorem onNext_refused (r : Refusal) (f : State → Host.Outcome State Fault Refusal) :
    onNext (.refused r) f = .refused r := rfl

/-- A composition that answers went through a next state. -/
theorem onNext_eq_next {o : Host.Outcome State Fault Refusal} {f : State → Host.Outcome State Fault Refusal} {t : State}
    (h : onNext o f = .next t) : ∃ u, o = .next u ∧ f u = .next t := by
  cases o with
  | next u => exact ⟨u, rfl, h⟩
  | fault r => cases h
  | refused r => cases h

theorem execMap_eq (idx : IdxWord) (s : State) : execMap idx s = .next (s.driveMapper idx (mapWord idx)) := rfl

theorem execPack_eq (mask : Mask) (s : State) : execPack mask s = .next (s.drivePacker mask (packRows mask)) := rfl

theorem execFill_eq (k : IdxWord) (s : State) : execFill k s = .next (s.driveFiller k (fillWord k)) := rfl

/-- If `DrvWrite` answers, chip and row exist and the one row is written. -/
theorem drvWrite_eq_next {chip row : Int} {v : Byte} {s t : State} (h : drvWrite chip row v s = .next t) :
    hasChip s.params chip = true ∧ isRow row = true ∧ t = s.putRow chip row v := by
  unfold drvWrite at h
  split at h
  · split at h
    · next hc hr => cases h; exact ⟨hc, hr, rfl⟩
    · cases h
  · cases h

/-- If `DrvSetLamp` answers, the driver offers it, chip, row and column exist, and the one bit is written. -/
theorem drvSetLamp_eq_next {chip row col : Int} {lit : Bool} {s t : State} (h : drvSetLamp chip row col lit s = .next t) :
    s.params.hasSetLamp = true ∧ hasChip s.params chip = true ∧ isRow row = true ∧ isCol col = true ∧
      t = s.putRow chip row (withColumn (s.rowByte chip row) col.toNat lit) := by
  unfold drvSetLamp at h
  split at h
  · split at h
    · split at h
      · split at h
        · next hs hc hr hl => cases h; exact ⟨hs, hc, hr, hl, rfl⟩
        · cases h
      · cases h
    · cases h
  · cases h

/-- If `DrvClear` answers, the chip exists and its rows are zeroed. -/
theorem drvClear_eq_next {chip : Int} {s t : State} (h : drvClear chip s = .next t) :
    hasChip s.params chip = true ∧
      t = { s with ram := s.ram.fillBytes (rowAddr chip 0) 0x00#8 Config.chipRows } := by
  unfold drvClear at h
  split at h
  · next hc => cases h; exact ⟨hc, rfl⟩
  · cases h

/-- A driver call that answers changes the row store and nothing else. -/
theorem drvCall_eq_next {c : DrvCall} {s t : State} (h : drvCall c s = .next t) : ∃ m, t = { s with ram := m } := by
  cases c with
  | write chip row v => exact ⟨_, (drvWrite_eq_next h).2.2⟩
  | setLamp chip row col lit => exact ⟨_, (drvSetLamp_eq_next h).2.2.2.2⟩
  | clear chip => exact ⟨_, (drvClear_eq_next h).2⟩

theorem isRow_iff (row : Int) : isRow row = true ↔ 0 ≤ row ∧ row < 4 := by
  simp [isRow, Config.ringRows]

theorem isCol_iff (col : Int) : isCol col = true ↔ 0 ≤ col ∧ col < 8 := by
  simp [isCol, Config.ringCols]

theorem hasChip_iff (p : Params) (chip : Int) : hasChip p chip = true ↔ 0 ≤ chip ∧ chip < p.nChips := by
  simp [hasChip]

end Sys2Proof.Machine
end

