-- ==== Sys2Proof/Laws/PerInstr.lean ====
section
/-! SUPPORT. Statements about every operation, one lemma for each constructor. -/

namespace Sys2Proof.Laws.EncodingFitsTable

/-- The operation's encoding is a word of the port of its row of the operation map, at that port's width. -/
def Statement (i : Instr) : Prop :=
  ∃ row ∈ opcodeTable, row.port = (encode i).1 ∧ row.width = 8 * (encode i).2.length

theorem map (idx : IdxWord) : Statement (.map idx) := ⟨opcodeTable[0], by simp [opcodeTable], rfl, rfl⟩

theorem pack (mask : Mask) : Statement (.pack mask) := ⟨opcodeTable[1], by simp [opcodeTable], rfl, rfl⟩

theorem fill (k : IdxWord) : Statement (.fill k) := ⟨opcodeTable[2], by simp [opcodeTable], rfl, rfl⟩

end Sys2Proof.Laws.EncodingFitsTable
end

