-- ==== Sys2Proof/Laws/Units.lean ====
section
/-! SUPPORT. The units on words that hold an index, and on words that hold none. -/

namespace Sys2Proof.Machine

/-- The word that holds index `i` is in range and gives its coordinate. -/
@[simp] theorem mapWord_setWidth (i : BitVec 5) : mapWord (i.setWidth 8) = .ok (mapCoord i) := by
  revert i; decide

/-- The word that holds `n` is in range and gives its mask. -/
@[simp] theorem fillWord_setWidth (n : BitVec 5) : fillWord (n.setWidth 8) = .ok (fillMask n) := by
  revert n; decide

@[simp] theorem indexOf_setWidth (i : BitVec 5) : indexOf (i.setWidth 8) = i := by
  revert i; decide

theorem mapWord_of_ge {word : IdxWord} (h : 32 ≤ word.toNat) : mapWord word = .indexOutOfRange := by
  revert word; decide

theorem fillWord_of_ge {word : IdxWord} (h : 32 ≤ word.toNat) : fillWord word = .indexOutOfRange := by
  revert word; decide

/-- The shift at 12 bits gives what the shift at 8 bits gives. -/
theorem lowToHigh_eq (b : Byte) : lowToHigh b = (b <<< 4) &&& 0xF0#8 := by
  revert b; decide

/-- Lighting or darkening a column changes its bit, `7 - col`, and no other. -/
theorem withColumn_getLsbD (old : Byte) {col : Nat} (hcol : col < 8) (lit : Bool) (b : Nat) :
    (withColumn old col lit).getLsbD b = if b = 7 - col then lit else old.getLsbD b := by
  by_cases hb : b < 8
  · unfold withColumn columnBit
    interval_cases col <;> interval_cases b <;> cases lit <;> simp
  · rw [BitVec.getLsbD_of_ge _ _ (by omega), BitVec.getLsbD_of_ge _ _ (by omega), if_neg (by omega)]

end Sys2Proof.Machine
end

