-- ==== Sys2Proof/Laws/Requests.lean ====
section
/-! SUPPORT. Who moves next and what serving each kind of request does, said once. -/

namespace Sys2Proof.Machine

theorem mem_readyFrom (n : Nat) (callers : List Caller) (c : Nat) :
    c ∈ readyFrom n callers ↔ n ≤ c ∧ ∃ caller, callers[c - n]? = some caller ∧ caller.pending ≠ [] := by
  induction callers generalizing n with
  | nil => simp [readyFrom]
  | cons head rest ih =>
    rcases Nat.lt_trichotomy c n with hlt | rfl | hgt
    · have hnot : ¬ n ≤ c := by omega
      have hnot' : ¬ n + 1 ≤ c := by omega
      have hne : c ≠ n := by omega
      rw [readyFrom]
      split <;> simp [ih, hnot, hnot', hne]
    · have hnot : ¬ c + 1 ≤ c := by omega
      rw [readyFrom]
      split
      · next h => simp only [List.isEmpty_iff] at h; simp [ih, hnot, h]
      · next h => simp only [List.isEmpty_iff] at h; simp [h]
    · have hge : n ≤ c := by omega
      have hge' : n + 1 ≤ c := by omega
      have hne : c ≠ n := by omega
      have hidx : c - n = (c - (n + 1)) + 1 := by omega
      rw [readyFrom]
      split <;> simp [ih, hge, hge', hne, hidx]

/-- A caller is ready exactly when it is there and has a request pending. -/
theorem mem_ready (s : State) (c : Nat) :
    c ∈ s.ready ↔ ∃ caller, s.callers[c]? = some caller ∧ caller.pending ≠ [] := by
  simp [State.ready, mem_readyFrom]

/-- The caller that moves is a ready one. -/
theorem mem_ready_of_chosen {s : State} {c : Nat} (h : s.chosen = some c) : c ∈ s.ready := by
  unfold State.chosen at h
  split at h
  · cases h
  · next hr => cases h; rw [hr]; exact List.mem_singleton_self c
  · exact List.mem_of_getElem? h

/-- Nobody moves exactly when nobody is ready. -/
theorem chosen_eq_none_iff (s : State) : s.chosen = none ↔ s.ready = [] := by
  unfold State.chosen
  split
  · next hr => simp [hr]
  · next hr => simp [hr]
  · next hne _ =>
    rw [List.getElem?_eq_none_iff]
    have hlt := Nat.mod_lt s.draw (List.length_pos_iff.mpr hne)
    exact ⟨fun h => absurd h (by omega), fun h => absurd h hne⟩

/-- What is fetched is the first pending request of a caller that is there. -/
theorem pending_of_fetch {s : State} {c : Nat} {r : Request} (h : s.fetch = some (c, r)) :
    ∃ caller rest, s.callers[c]? = some caller ∧ caller.pending = r :: rest := by
  unfold State.fetch at h
  split at h
  · cases h
  · split at h
    · cases h
    · next caller hcaller =>
      split at h
      · cases h
      · next hpending => cases h; exact ⟨caller, _, hcaller, hpending⟩

/-- With one caller, what is fetched is its first request. -/
theorem fetch_single {s : State} {r : Request} {rest : List Request} {reply : Option Reply}
    (h : s.callers = [{ pending := r :: rest, reply := reply }]) : s.fetch = some (0, r) := by
  simp [State.fetch, State.chosen, State.ready, readyFrom, h]

theorem step_of_fetch {s : State} {c : Nat} {r : Request} (h : s.fetch = some (c, r)) :
    step s = serve c r (s.take c) := by
  simp [step, h]

theorem step_of_fetch_none {s : State} (h : s.fetch = none) : step s = .next s := by
  simp [step, h]

/-- `exec` always answers: no operation stops. -/
theorem exec_eq_next (i : Instr) (s : State) : ∃ t, exec i s = .next t := by
  cases i <;> exact ⟨_, rfl⟩

theorem serve_word {c : Nat} {port : Port} {bytes : List Byte} {i : Instr} {s t : State}
    (hi : decode port bytes = .ok i) (ht : exec i s = .next t) :
    serve c (.word port bytes) s = .next (t.giveReply c (some (replyTo i t))) := by
  simp [serve, hi, serveInstr, ht]

theorem serve_word_error {c : Nat} {port : Port} {bytes : List Byte} {e : DecodeError} {s : State}
    (h : decode port bytes = .error e) : serve c (.word port bytes) s = .refused (.notAPortWord e) := by
  simp [serve, h]

theorem serve_updateFull (c : Nat) (chip : Int) (mask : Mask) (s : State) :
    serve c (.updateFull chip mask) s =
      .next ((s.drivePacker mask (packRows mask)).continueWith c (fullCalls chip (packRows mask))) := rfl

theorem serve_updateLamp_ok {c : Nat} {chip : Int} {idx : IdxWord} {lit : Bool} {s : State} {place : Coord}
    (h : mapWord idx = .ok place) :
    serve c (.updateLamp chip idx lit) s =
      .next ((s.driveMapper idx (.ok place)).continueWith c
        [lampCall chip place lit (s.driveMapper idx (.ok place))]) := by
  simp [serve, updateLamp, execMap_eq, h]

theorem serve_updateLamp_error {c : Nat} {chip : Int} {idx : IdxWord} {lit : Bool} {s : State}
    (h : mapWord idx = .indexOutOfRange) :
    serve c (.updateLamp chip idx lit) s =
      .next ((s.driveMapper idx .indexOutOfRange).giveReply c (some .indexOutOfRange)) := by
  simp [serve, updateLamp, execMap_eq, h]

theorem serve_updateArc_ok {c : Nat} {chip : Int} {k : IdxWord} {s : State} {mask : Mask} (h : fillWord k = .ok mask) :
    serve c (.updateArc chip k) s =
      .next ((s.driveFiller k (.ok mask)).continueWith c [.updateFull chip mask]) := by
  simp [serve, updateArc, execFill_eq, h]

theorem serve_updateArc_error {c : Nat} {chip : Int} {k : IdxWord} {s : State} (h : fillWord k = .indexOutOfRange) :
    serve c (.updateArc chip k) s =
      .next ((s.driveFiller k .indexOutOfRange).giveReply c (some .indexOutOfRange)) := by
  simp [serve, updateArc, execFill_eq, h]

theorem serve_recomputeLamp_ok {c : Nat} {chip : Int} {held : Mask} {idx : IdxWord} {lit : Bool} {s : State} {place : Coord}
    (h : mapWord idx = .ok place) :
    serve c (.recomputeLamp chip held idx lit) s =
      .next (((s.driveMapper idx (.ok place)).drivePacker (withLamp held (indexOf idx) lit)
          (packRows (withLamp held (indexOf idx) lit))).continueWith c
        [.call (.write chip place.row.toNat (rowOf (packRows (withLamp held (indexOf idx) lit)) place.row))]) := by
  simp [serve, recomputeLamp, execMap_eq, execPack_eq, h]

theorem serve_recomputeLamp_error {c : Nat} {chip : Int} {held : Mask} {idx : IdxWord} {lit : Bool} {s : State}
    (h : mapWord idx = .indexOutOfRange) :
    serve c (.recomputeLamp chip held idx lit) s =
      .next ((s.driveMapper idx .indexOutOfRange).giveReply c (some .indexOutOfRange)) := by
  simp [serve, recomputeLamp, execMap_eq, h]

theorem serve_call {c : Nat} {d : DrvCall} {s t : State} (h : drvCall d s = .next t) :
    serve c (.call d) s = .next (t.giveReply c (some .done)) := by
  simp [serve, serveCall, h]

/-- If a driver call's request is served, the call answered. -/
theorem serve_call_eq_next {c : Nat} {d : DrvCall} {s t : State} (h : serve c (.call d) s = .next t) :
    ∃ u, drvCall d s = .next u ∧ t = u.giveReply c (some .done) := by
  obtain ⟨u, hu, ht⟩ := onNext_eq_next h
  cases ht
  exact ⟨u, hu, rfl⟩

/-- Everything that serving a request can do: a driver call changes the row store and gives its caller a reply; any other
request leaves the row store alone, puts on each unit's ports either nothing or a word with its own result, and changes its
caller. -/
theorem serve_eq_next {c : Nat} {r : Request} {s t : State} (h : serve c r s = .next t) :
    (∃ d u, r = .call d ∧ drvCall d s = .next u ∧ t = u.giveReply c (some .done)) ∨
    ((∀ d, r ≠ .call d) ∧ ∃ m p f g,
      t = { s with mapper := m, packer := p, filler := f, callers := s.callers.modify c g } ∧
      (m = s.mapper ∨ ∃ idx, m = { idx := idx, out := mapWord idx }) ∧
      (p = s.packer ∨ ∃ mask, p = { mask := mask, out := packRows mask }) ∧
      (f = s.filler ∨ ∃ k, f = { k := k, out := fillWord k })) := by
  cases r with
  | call d =>
    obtain ⟨u, hu, ht⟩ := serve_call_eq_next h
    exact .inl ⟨d, u, rfl, hu, ht⟩
  | word port bytes =>
    refine .inr ⟨fun _ => Request.noConfusion, ?_⟩
    cases hd : decode port bytes with
    | error e => rw [serve_word_error hd] at h; cases h
    | ok i =>
      cases i with
      | map idx => rw [serve_word hd rfl] at h; cases h; exact ⟨_, _, _, _, rfl, .inr ⟨_, rfl⟩, .inl rfl, .inl rfl⟩
      | pack mask => rw [serve_word hd rfl] at h; cases h; exact ⟨_, _, _, _, rfl, .inl rfl, .inr ⟨_, rfl⟩, .inl rfl⟩
      | fill k => rw [serve_word hd rfl] at h; cases h; exact ⟨_, _, _, _, rfl, .inl rfl, .inl rfl, .inr ⟨_, rfl⟩⟩
  | updateFull chip mask =>
    refine .inr ⟨fun _ => Request.noConfusion, ?_⟩
    rw [serve_updateFull] at h; cases h
    exact ⟨_, _, _, _, rfl, .inl rfl, .inr ⟨_, rfl⟩, .inl rfl⟩
  | updateLamp chip idx lit =>
    refine .inr ⟨fun _ => Request.noConfusion, ?_⟩
    cases hm : mapWord idx with
    | ok place =>
      rw [serve_updateLamp_ok hm] at h; cases h
      exact ⟨_, _, _, _, rfl, .inr ⟨idx, by rw [hm]; rfl⟩, .inl rfl, .inl rfl⟩
    | indexOutOfRange =>
      rw [serve_updateLamp_error hm] at h; cases h
      exact ⟨_, _, _, _, rfl, .inr ⟨idx, by rw [hm]; rfl⟩, .inl rfl, .inl rfl⟩
  | updateArc chip k =>
    refine .inr ⟨fun _ => Request.noConfusion, ?_⟩
    cases hm : fillWord k with
    | ok mask =>
      rw [serve_updateArc_ok hm] at h; cases h
      exact ⟨_, _, _, _, rfl, .inl rfl, .inl rfl, .inr ⟨k, by rw [hm]; rfl⟩⟩
    | indexOutOfRange =>
      rw [serve_updateArc_error hm] at h; cases h
      exact ⟨_, _, _, _, rfl, .inl rfl, .inl rfl, .inr ⟨k, by rw [hm]; rfl⟩⟩
  | recomputeLamp chip held idx lit =>
    refine .inr ⟨fun _ => Request.noConfusion, ?_⟩
    cases hm : mapWord idx with
    | ok place =>
      rw [serve_recomputeLamp_ok hm] at h; cases h
      exact ⟨_, _, _, _, rfl, .inr ⟨idx, by rw [hm]; rfl⟩, .inr ⟨_, rfl⟩, .inl rfl⟩
    | indexOutOfRange =>
      rw [serve_recomputeLamp_error hm] at h; cases h
      exact ⟨_, _, _, _, rfl, .inr ⟨idx, by rw [hm]; rfl⟩, .inl rfl, .inl rfl⟩

end Sys2Proof.Machine
end

