-- ==== Sys2Proof/Tests/Slice0.lean ====
section
/-! SUPPORT. Tests: the spec's own vectors (`95_test_vectors.md`, the section named at each), the smoke test of the
well-formedness checks, and for every statement with hypotheses a state and operands that meet them. -/

namespace Sys2Proof.Tests

open Sys2Proof.Machine

/-- The next state of an outcome, if it is one. -/
def after (o : Host.Outcome State Fault Refusal) : Option State :=
  match o with
  | .next t => some t
  | .fault _ => none
  | .refused _ => none

/-- The refusal of an outcome, if it is one. -/
def refusalOf (o : Host.Outcome State Fault Refusal) : Option Refusal :=
  match o with
  | .next _ => none
  | .fault _ => none
  | .refused r => some r

/-- One caller with these requests. -/
def asks (rs : List Request) : State := { State.reset with callers := [{ pending := rs, reply := none }] }

/-- The start of section 5: rows 0 to 7 of chip 0. -/
def section5 : State :=
  { State.reset with
    ram := [(0, 0x18#8), (1, 0x27#8), (2, 0x36#8), (3, 0x45#8), (4, 0xA0#8), (5, 0xA1#8), (6, 0xA2#8), (7, 0xA3#8)] }

/-- The same with two chips and nothing known of chip 1. -/
def twoChips : State := { section5 with params := { nChips := 2, hasSetLamp := false } }

/-! ### Well-formedness: a word that fits and one that does not, for each check -/

theorem test_wellFormed_map : (Instr.map 0x1F#8).wellFormed = true ∧ (Instr.map 0x20#8).wellFormed = false := by decide

theorem test_wellFormed_fill : (Instr.fill 0x1F#8).wellFormed = true ∧ (Instr.fill 0x80#8).wellFormed = false := by decide

/-- R81: no word of PACK is illegal. -/
theorem test_wellFormed_pack : (Instr.pack 0xFFFFFFFF#32).wellFormed = true := by decide

/-! ### Decoding: words written out from the operation map (R79) -/

theorem test_decode_map : decode .mapIdx [0b00010110#8] = .ok (.map 22#8) := by rfl

theorem test_decode_fill : decode .fillK [0b00000011#8] = .ok (.fill 3#8) := by rfl

theorem test_decode_pack :
    decode .packMask [0b01111000#8, 0b01010110#8, 0b00110100#8, 0b00010010#8] = .ok (.pack 0x12345678#32) := by rfl

theorem test_decode_wrong_width : decode .packMask [0x00#8] = .error (.wrongWidth .packMask 1) := by rfl

theorem test_encode_pack : encode (.pack 0x12345678#32) = (.packMask, [0x78#8, 0x56#8, 0x34#8, 0x12#8]) := by decide

theorem test_decodeTableWord : decodeTableWord 8 0x16 = some (.map 22#8) ∧
    decodeTableWord 32 0x80018001 = some (.pack 0x80018001#32) ∧ decodeTableWord 16 0 = none := by decide

/-- No two rows of the map stand for one word of one port. -/
theorem test_opcodeTable_ports_differ : opcodeTable.Pairwise fun a b => a.port ≠ b.port := by decide

/-! ### The operations: sections 2 to 4 and the mistakes of section 8 -/

theorem test_map_22 : (after (exec (.map 0x16#8) State.reset)).map (fun t => t.mapper.out) =
    some (.ok { row := 2#2, col := 6#3 }) := by decide

/-- Only bit 6 set: an error, not coordinate (0, 0) (section 2.2). -/
theorem test_map_64 : (after (exec (.map 0x40#8) State.reset)).map (fun t => (t.mapper.out, t.mapErr)) =
    some (.indexOutOfRange, true) := by decide

theorem test_pack_every_nibble : (after (exec (.pack 0x12345678#32) State.reset)).map (fun t => t.packer.out) =
    some { row0 := 0x18#8, row1 := 0x27#8, row2 := 0x36#8, row3 := 0x45#8 } := by decide

theorem test_pack_seam : (after (exec (.pack 0x80018001#32) State.reset)).map (fun t => t.packer.out) =
    some { row0 := 0x81#8, row1 := 0x00#8, row2 := 0x00#8, row3 := 0x18#8 } := by decide

theorem test_fill_16 : (after (exec (.fill 0x10#8) State.reset)).map (fun t => t.filler.out) =
    some (.ok 0xFFFF8000#32) := by decide

theorem test_fill_32 : (after (exec (.fill 0x20#8) State.reset)).map (fun t => (t.filler.out, t.fillErr)) =
    some (.indexOutOfRange, true) := by decide

/-! ### The driver calls: section 5 -/

theorem test_drvWrite : (after (drvCall (.write 0 2 0xFF#8) section5)).map (fun t => ringRows t 0) =
    some { row0 := 0x18#8, row1 := 0x27#8, row2 := 0xFF#8, row3 := 0x45#8 } := by decide

theorem test_drvSetLamp_lit : (after (drvCall (.setLamp 0 1 4 true) section5)).map (fun t => t.rowByte 0 1) =
    some 0x2F#8 := by decide

theorem test_drvSetLamp_dark : (after (drvCall (.setLamp 0 0 3 false) section5)).map (fun t => t.rowByte 0 0) =
    some 0x08#8 := by decide

theorem test_drvClear : (after (drvCall (.clear 0) section5)).map (fun t => (t.rowByte 0 0, t.rowByte 0 7)) =
    some (0x00#8, 0x00#8) := by decide

/-- Program P7 with one chip: refused. -/
theorem test_no_second_chip : refusalOf (drvCall (.write 1 2 0xFF#8) section5) = some (.noSuchChip 1) := by decide

theorem test_no_setLamp : refusalOf (drvCall (.setLamp 0 0 0 true) twoChips) = some .noSetLamp := by decide

theorem test_no_port_word : refusalOf (step (asks [.word .packMask [0x20#8]])) =
    some (.notAPortWord (.wrongWidth .packMask 1)) := by decide

theorem test_lit : section5.lit 0 3#5 = true ∧ section5.lit 0 0#5 = false ∧ section5.lit 0 16#5 = false ∧
    section5.lit 0 19#5 = true := by decide

/-! ### The update sequences: section 6 -/

theorem test_updateLamp : (steps 2 { section5 with callers := [{ pending := [.updateLamp 0 0x10#8 true], reply := none }] }).map
    (fun t => (ringRows t 0).row3) = some 0x4D#8 := by decide

theorem test_updateLamp_error : (after (step (asks [.updateLamp 0 0x20#8 true]))).map (fun t => (t.ram, t.callers)) =
    some ([], [{ pending := [], reply := some .indexOutOfRange }]) := by decide

theorem test_updateFull_calls : (after (step (asks [.updateFull 0 0x12345678#32]))).map (fun t => t.callers) =
    some [{ pending := [.call (.write 0 0 0x18#8), .call (.write 0 1 0x27#8), .call (.write 0 2 0x36#8),
                        .call (.write 0 3 0x45#8)],
            reply := none }] := by decide

theorem test_updateArc : (after (step (asks [.updateArc 0 0x03#8]))).map (fun t => t.callers) =
    some [{ pending := [.updateFull 0 0xF0000000#32], reply := none }] := by decide

theorem test_recomputeLamp : (after (step (asks [.recomputeLamp 0 0xFFFFFFFF#32 0x0A#8 false]))).map (fun t => t.callers) =
    some [{ pending := [.call (.write 0 2 0xDF#8)], reply := none }] := by decide

theorem test_withFetchWord : (after (step (State.reset.withFetchWord 8 0x1F))).map (fun t => t.callers) =
    some [{ pending := [], reply := some (.coord { row := 0#2, col := 7#3 }) }] := by decide

/-! ### Witnesses: a state and operands that meet the hypotheses of each statement that has some -/

theorem witness_EncodeOfDecode : decode .fillK [0xFF#8] = .ok (.fill 0xFF#8) := by rfl

theorem witness_DecodeAcceptsExactlyPortWords : opcodeTable[1] ∈ opcodeTable ∧
    8 * [0x00#8, 0x00#8, 0x00#8, 0x80#8].length = opcodeTable[1].width ∧ 8 * [0x00#8].length ≠ opcodeTable[1].width := by
  decide

/-- The ends of the range at the least width, and one word past it. -/
theorem witness_RangeTestNeedsNoSignedness : 7 ≤ 7 ∧ inRange 31#7 = true ∧ inRange 32#7 = false ∧ inRange 127#7 = false := by
  decide

theorem witness_IndexWidthDoesNotMatter : 7 ≤ 7 ∧ 31 < 32 := by decide

theorem witness_MapFirstHalf : (0x0F#8).toNat ≤ 15 ∧ (0x00#8).toNat ≤ 15 := by decide

theorem witness_MapSecondHalf : 16 ≤ (0x10#8).toNat ∧ (0x10#8).toNat ≤ 31 ∧ 16 ≤ (0x1F#8).toNat ∧ (0x1F#8).toNat ≤ 31 := by
  decide

theorem witness_MapRejectsOutOfRange : 32 ≤ (0x20#8).toNat ∧ 32 ≤ (0xFF#8).toNat := by decide

theorem witness_MapIsBijection : (0x1F#8).toNat ≤ 31 ∧ (0x00#8).toNat ≤ 31 := by decide

theorem witness_MapIsWiresAndTwoXors : (after (exec (.map 0x1F#8) State.reset)).map (fun t => t.mapErr) = some false := by decide

theorem witness_UnmapInvertsMap : (3#3).toNat ≤ 3 ∧ 4 ≤ (4#3).toNat := by decide

theorem witness_PackFormulas : 0x78#8 = (0x12345678#32).extractLsb' 0 8 ∧ 0x56#8 = (0x12345678#32).extractLsb' 8 8 ∧
    0x34#8 = (0x12345678#32).extractLsb' 16 8 ∧ 0x12#8 = (0x12345678#32).extractLsb' 24 8 := by decide

theorem witness_PackIsFixedWiring : 3 < 4 := by decide

theorem witness_UnpackInvertsPack : (0x78#8 = (0x18#8 &&& 0x0F#8) ||| ((0x27#8 &&& 0x0F#8) <<< 4)) ∧
    (0x12#8 = (0x18#8 &&& 0xF0#8) ||| (0x27#8 >>> 4)) ∧ (0x56#8 = (0x36#8 &&& 0x0F#8) ||| ((0x45#8 &&& 0x0F#8) <<< 4)) ∧
    (0x34#8 = (0x36#8 &&& 0xF0#8) ||| (0x45#8 >>> 4)) := by decide

theorem witness_FillCountsFromZero : 1 ≤ 1 ∧ 32 ≤ 32 := by decide

theorem witness_FillRejectsOutOfRange : 32 ≤ (0x20#8).toNat ∧ 32 ≤ (0xFF#8).toNat := by decide

theorem witness_FillIsThermometer : 31 < 32 := by decide

theorem witness_UnitsAreIndependent : (encode (.map 0x20#8)).1 ≠ (encode (.fill 0x20#8)).1 := by decide

theorem witness_ErrorsDoNotStick : (encode (.map 0x20#8)).1 = (encode (.map 0x05#8)).1 ∧
    (Instr.map 0x05#8).wellFormed = true := by decide

theorem witness_ErrorBitSaysWhatOutputsHold : State.reset.mapErr = false ∧ State.reset.fillErr = false := by decide

theorem witness_DrvWriteEffect : hasChip section5.params 0 = true ∧ isRow 3 = true ∧ 4 ≠ rowAddr 0 3 := by decide

theorem witness_DrvSetLampEffect : section5.params.hasSetLamp = true ∧ hasChip section5.params 0 = true ∧ isRow 3 = true ∧
    isCol 7 = true ∧ 1 ≠ 7 - (7 : Int).toNat ∧ 4 ≠ rowAddr 0 3 := by decide

theorem witness_DrvClearEffect : hasChip twoChips.params 0 = true ∧ (0 : Int) ≤ 7 ∧ (7 : Int) < 8 ∧
    Memory.read? [(8, 0x55#8)] 8 = some 0x55#8 ∧ rowAddr 1 0 = 8 := by decide

theorem witness_DriverRefusesWhatDoesNotExist :
    ¬ ((0 : Int) ≤ 1 ∧ (1 : Int) < section5.params.nChips) ∧ ¬ ((0 : Int) ≤ -1 ∧ (-1 : Int) < section5.params.nChips) ∧
    hasChip section5.params 0 = true ∧ ¬ ((0 : Int) ≤ 4 ∧ (4 : Int) < 4) ∧ ((0 : Int) ≤ 3 ∧ (3 : Int) < 4) ∧
    ¬ ((0 : Int) ≤ 8 ∧ (8 : Int) < 8) ∧ section5.params.hasSetLamp = true ∧ twoChips.params.hasSetLamp = false := by decide

theorem witness_ChipsAreDisjoint : (after (drvCall (.write 1 3 0xFF#8) twoChips)).isSome = true ∧ (0 : Int) ≤ 0 ∧ (0 : Int) ≠ 1 ∧
    (0 : Int) ≤ 7 ∧ (7 : Int) < 8 := by decide

theorem witness_CallsAreIdempotent : Memory.wf section5.ram ∧ (after (drvCall (.setLamp 0 3 7 false) section5)).isSome = true := by
  decide

/-- Bytes that are a word of their port, and bytes that are none. -/
theorem witness_StepRunsDecodedWord : (asks [.word .mapIdx [0x20#8]]).fetch = some (0, .word .mapIdx [0x20#8]) ∧
    decode .mapIdx [0x20#8] = .ok (.map 0x20#8) ∧
    (asks [.word .packMask [0x20#8]]).fetch = some (0, .word .packMask [0x20#8]) ∧
    decode .packMask [0x20#8] = .error (.wrongWidth .packMask 1) := ⟨by decide, rfl, by decide, rfl⟩

theorem witness_FetchWordIsNext : decodeTableWord 32 0x12345678 = some (.pack 0x12345678#32) := by decide

theorem witness_UpdateFullExpands : (asks [.updateFull 0 1#32]).fetch = some (0, .updateFull 0 1#32) := by decide

/-- A driver without `setLamp` that is asked for lamp 31. -/
def noSetLampAsked : State :=
  { twoChips with callers := [{ pending := [.updateLamp 1 0x1F#8 true], reply := none }] }

/-- An index in range with the driver's `setLamp`; the same fetched without it; and an index out of range. -/
theorem witness_UpdateLampExpands : (asks [.updateLamp 0 0x1F#8 true]).fetch = some (0, .updateLamp 0 0x1F#8 true) ∧
    mapWord 0x1F#8 = .ok { row := 0#2, col := 7#3 } ∧ (asks [.updateLamp 0 0x1F#8 true]).params.hasSetLamp = true ∧
    noSetLampAsked.fetch = some (0, .updateLamp 1 0x1F#8 true) ∧ noSetLampAsked.params.hasSetLamp = false ∧
    (asks [.updateLamp 0 0x20#8 true]).fetch = some (0, .updateLamp 0 0x20#8 true) ∧
    mapWord 0x20#8 = .indexOutOfRange := by decide

theorem witness_UpdateArcExpands : (asks [.updateArc 0 0x1F#8]).fetch = some (0, .updateArc 0 0x1F#8) ∧
    (0x1F#8).toNat ≤ 31 ∧ (asks [.updateArc 0 0x20#8]).fetch = some (0, .updateArc 0 0x20#8) ∧ 32 ≤ (0x20#8).toNat := by
  decide

/-- An index in range, a row that it does not name, and an index out of range. -/
theorem witness_RecomputeLampExpands :
    (asks [.recomputeLamp 0 0#32 0x1F#8 true]).fetch = some (0, .recomputeLamp 0 0#32 0x1F#8 true) ∧
    mapWord 0x1F#8 = .ok { row := 0#2, col := 7#3 } ∧ 0x00000001#32 = 0#32 ||| bitOf (indexOf 0x1F#8) ∧ 1#2 ≠ 0#2 ∧
    (asks [.recomputeLamp 0 0#32 0x20#8 true]).fetch = some (0, .recomputeLamp 0 0#32 0x20#8 true) ∧
    mapWord 0x20#8 = .indexOutOfRange := by decide

theorem witness_ErrorIssuesNoCall : 32 ≤ (0x20#8).toNat ∧
    (asks [.updateLamp 0 0x20#8 true]).fetch = some (0, .updateLamp 0 0x20#8 true) ∧
    (asks [.updateArc 0 0x20#8]).fetch = some (0, .updateArc 0 0x20#8) ∧
    (asks [.recomputeLamp 0 0#32 0x20#8 true]).fetch = some (0, .recomputeLamp 0 0#32 0x20#8 true) := by decide

theorem witness_OnlyDriverCallsStore : (after (step (asks [.word .fillK [0x1F#8]]))).isSome = true ∧
    (asks [.word .fillK [0x1F#8]]).fetch = some (0, .word .fillK [0x1F#8]) := by decide

theorem witness_OuterRowsOnlyCleared : (after (step (asks [.call (.write 0 3 0xFF#8)]))).isSome = true ∧
    (asks [.call (.write 0 3 0xFF#8)]).fetch = some (0, .call (.write 0 3 0xFF#8)) ∧
    (0 : Int) ≤ 0 ∧ (4 : Int) ≤ 4 ∧ (7 : Int) < 8 := by decide

theorem witness_NoSequenceClears : NoClearPending (asks [.updateFull 0 0#32]) ∧
    (after (step (asks [.updateFull 0 0#32]))).isSome = true := by
  refine ⟨?_, by decide⟩
  simp [NoClearPending, asks]

theorem witness_StepServesOneCaller : (after (step State.reset)).isSome = true ∧ State.reset.fetch = none ∧
    (after (step (asks [.updateFull 0 1#32]))).isSome = true ∧ (0 : Nat) ≠ 1 := by decide

theorem witness_EveryReadyCallerCanMoveNext : (asks [.updateFull 0 1#32]).callers[0]? =
    some { pending := [.updateFull 0 1#32], reply := none } ∧ [Request.updateFull 0 1#32] ≠ [] := by decide

theorem witness_PortsStaySettled : PortsSettled (asks [.word .mapIdx [0x20#8]]) ∧
    (after (step (asks [.word .mapIdx [0x20#8]]))).isSome = true := by
  unfold PortsSettled
  decide

theorem witness_StoreStaysInBounds : StoreInBounds { section5 with callers := (asks [.call (.clear 0)]).callers } ∧
    (after (step { section5 with callers := (asks [.call (.clear 0)]).callers })).isSome = true := by
  unfold StoreInBounds
  decide

theorem witness_AdmissibleNeverStops : AllAdmissible (asks [.updateLamp 0 0xFF#8 true, .call (.setLamp 0 3 7 true)]) := by
  unfold AllAdmissible
  decide

theorem witness_UpdateLampChangesOneLamp : hasChip State.reset.params 0 = true ∧
    (asks [.updateLamp 0 ((31#5).setWidth 8) true]).callers =
      [{ pending := [.updateLamp 0 ((31#5).setWidth 8) true], reply := none }] := by decide

theorem witness_UpdateFullWritesPack : hasChip State.reset.params 0 = true ∧
    (asks [.updateFull 0 0x80000001#32]).callers = [{ pending := [.updateFull 0 0x80000001#32], reply := none }] := by decide

/-- The order in which the 32 indices come down from 31. -/
def countDown : List (BitVec 5) := (List.range 32).map fun n => BitVec.ofNat 5 (31 - n)

theorem witness_FullUpdateEqualsLampUpdates : hasChip State.reset.params 0 = true ∧ hasChip section5.params 0 = true ∧
    countDown.length = 32 ∧ (∀ i, i ∈ countDown) ∧ ∀ row : Int, isRow row = true → 4 ≠ rowAddr 0 row := by
  refine ⟨by decide, by decide, by decide, by decide, fun row h => ?_⟩
  simp [isRow, Config.ringRows, rowAddr, Config.chipRows] at h ⊢
  omega

theorem witness_FullWriteOrderDoesNotMatter : Memory.wf section5.ram ∧ hasChip section5.params 0 = true ∧
    [DrvCall.write 0 3 1#8, .write 0 2 2#8, .write 0 1 3#8, .write 0 0 4#8].Perm
      [.write 0 0 4#8, .write 0 1 3#8, .write 0 2 2#8, .write 0 3 1#8] := by decide

theorem witness_UpdateArcShowsArc : hasChip State.reset.params 0 = true ∧
    (asks [.updateArc 0 ((0#5).setWidth 8)]).callers = [{ pending := [.updateArc 0 ((0#5).setWidth 8)], reply := none }] ∧
    ∀ row : Int, isRow row = true → 4 ≠ rowAddr 0 row := by
  refine ⟨by decide, by decide, fun row h => ?_⟩
  simp [isRow, Config.ringRows, rowAddr, Config.chipRows] at h ⊢
  omega

/-- Rows 0 to 3 of section 5 hold PACK(0x12345678). -/
theorem witness_RecomputedLampWritesPack : hasChip section5.params 0 = true ∧ ringRows section5 0 = packRows 0x12345678#32 ∧
    ({ section5 with callers :=
        [{ pending := [.recomputeLamp 0 0x12345678#32 ((10#5).setWidth 8) true], reply := none }] } : State).callers =
      [{ pending := [.recomputeLamp 0 0x12345678#32 ((10#5).setWidth 8) true], reply := none }] ∧
    1 ≠ rowAddr 0 (mapCoord 10#5).row.toNat := by decide

theorem witness_InterleavedUpdatesMixWholeRows : hasChip State.reset.params 0 = true ∧
    ({ State.reset with callers := [{ pending := [.updateFull 0 1#32], reply := none },
                                    { pending := [.updateFull 0 2#32], reply := none }] } : State).callers =
      [{ pending := [.updateFull 0 1#32], reply := none }, { pending := [.updateFull 0 2#32], reply := none }] := by decide

end Sys2Proof.Tests
end

/-! ## Words of format IDX at every width, and the single bits of a mask (`00_scope.md` R8, R13) -/

namespace Sys2Proof.Machine

/-- The range test asks for the bits from 5 up (R73): read as a number, it is the bound 32 at every width. -/
theorem inRange_iff_toNat_lt {w : Nat} (word : BitVec w) : inRange word = true ↔ word.toNat < 32 := by
  have hshift : (word >>> 5).toNat = word.toNat / 32 := by
    rw [BitVec.toNat_ushiftRight, Nat.shiftRight_eq_div_pow]
  rw [inRange, beq_iff_eq, ← BitVec.toNat_inj, hshift, BitVec.toNat_zero]
  omega

/-- The five low bits of a number, taken from a word wide enough to hold them. -/
theorem indexOf_ofNat {w : Nat} (hw : 5 ≤ w) (n : Nat) : indexOf (BitVec.ofNat w n) = BitVec.ofNat 5 n := by
  rw [indexOf, ← BitVec.setWidth_eq_extractLsb' hw, BitVec.setWidth_ofNat_of_le hw]

theorem inRange_ofNat {w n : Nat} (hn : n < 32) : inRange (BitVec.ofNat w n) = true := by
  have hle : (BitVec.ofNat w n).toNat ≤ n := by
    rw [BitVec.toNat_ofNat]
    exact Nat.mod_le n _
  exact (inRange_iff_toNat_lt _).2 (by omega)

/-- MAP of a number in range names no width on the right: the coordinate is that of the index (R100). -/
theorem mapWord_ofNat {w n : Nat} (hw : 5 ≤ w) (hn : n < 32) :
    mapWord (BitVec.ofNat w n) = .ok (mapCoord (BitVec.ofNat 5 n)) := by
  rw [mapWord, if_pos (inRange_ofNat hn), indexOf_ofNat hw]

/-- FILL of a number in range names no width on the right: the mask is that of the shift count (R140). -/
theorem fillWord_ofNat {w n : Nat} (hw : 5 ≤ w) (hn : n < 32) :
    fillWord (BitVec.ofNat w n) = .ok (fillMask (BitVec.ofNat 5 n)) := by
  rw [fillWord, if_pos (inRange_ofNat hn), indexOf_ofNat hw]

/-- Settles O8: at both widths the result is that of the five-bit index. -/
theorem indexWidthDoesNotMatter : Obligations.IndexWidthDoesNotMatter := by
  intro w n hw hn
  have hw5 : 5 ≤ w := by omega
  have h8 : 5 ≤ 8 := by omega
  exact ⟨(mapWord_ofNat hw5 hn).trans (mapWord_ofNat h8 hn).symm,
    (fillWord_ofNat hw5 hn).trans (fillWord_ofNat h8 hn).symm⟩

/-- The shifted 1 is a power of two, so that the library's lemmas on `BitVec.twoPow` speak of `bitOf`. -/
theorem bitOf_eq_twoPow (i : BitVec 5) : bitOf i = BitVec.twoPow 32 (31 - i.toNat) :=
  (BitVec.twoPow_eq 32 _).symm

/-- Logical index `i` stands at bit `31 - i` of a mask (R48), and `bitOf i` has no other bit. -/
theorem getLsbD_bitOf (i : BitVec 5) (b : Nat) : (bitOf i).getLsbD b = true ↔ b = 31 - i.toNat := by
  have hbit : 31 - i.toNat < 32 := by omega
  simp [bitOf_eq_twoPow, BitVec.getLsbD_twoPow, hbit, eq_comm]

/-- Settles O30: the formula is the definition's own; the one bit is that of the power of two. -/
theorem bitOfIsOneBit : Obligations.BitOfIsOneBit :=
  fun i => ⟨rfl, getLsbD_bitOf i⟩

end Sys2Proof.Machine

/-! ## The state of a run: results, frames and the words on the ports (`10_state.md` sections 2 and 4) -/

namespace Sys2Proof.Machine

/-- What the caller of MAP gets back for a result on the MAPPER's outputs. -/
def coordReply : Result Coord → Reply
  | .ok c => .coord c
  | .indexOutOfRange => .indexOutOfRange

/-- What the caller of FILL gets back for a result on the FILLER's outputs. -/
def maskReply : Result Mask → Reply
  | .ok m => .mask m
  | .indexOutOfRange => .indexOutOfRange

theorem replyTo_map (idx : IdxWord) (s : State) : replyTo (.map idx) s = coordReply s.mapper.out := by
  cases h : s.mapper.out <;> simp [replyTo, coordReply, h]

theorem replyTo_pack (mask : Mask) (s : State) : replyTo (.pack mask) s = .rows s.packer.out := rfl

theorem replyTo_fill (k : IdxWord) (s : State) : replyTo (.fill k) s = maskReply s.filler.out := by
  cases h : s.filler.out <;> simp [replyTo, maskReply, h]

/-- The result of an operation as a function of its operand alone: no state is among its arguments (R21). -/
def resultOf : Instr → Reply
  | .map idx => coordReply (mapWord idx)
  | .pack mask => .rows (packRows mask)
  | .fill k => maskReply (fillWord k)

/-- Each unit's reply is read from the outputs that its own evaluation has just driven. -/
theorem replyTo_of_exec {i : Instr} {s t : State} (h : exec i s = .next t) : replyTo i t = resultOf i := by
  cases i with
  | map idx => cases h; rw [replyTo_map, driveMapper_mapper, resultOf]
  | pack mask => cases h; rw [replyTo_pack, drivePacker_packer, resultOf]
  | fill k => cases h; rw [replyTo_fill, driveFiller_filler, resultOf]

/-- Settles O26: from either state the reply is the operation's `resultOf`. -/
theorem resultsIgnoreState : Obligations.ResultsIgnoreState := by
  intro i s s'
  obtain ⟨t, ht⟩ := exec_eq_next i s
  obtain ⟨t', ht'⟩ := exec_eq_next i s'
  exact ⟨t, t', ht, ht', (replyTo_of_exec ht).trans (replyTo_of_exec ht').symm⟩

/-- Settles O37: the step serves the fetched bytes, and serving them follows the decoder's outcome. -/
theorem stepRunsDecodedWord : Obligations.StepRunsDecodedWord := by
  intro s c port bytes hfetch
  rw [step_of_fetch hfetch]
  refine ⟨fun i hi => ?_, fun e he => serve_word_error he⟩
  obtain ⟨t, ht⟩ := exec_eq_next i (s.take c)
  exact ⟨t, ht, serve_word hi ht⟩

/-- Everything that a step can do: nothing, with no request fetched, or the service of the one fetched. -/
theorem step_eq_next {s t : State} (h : step s = .next t) :
    (s.fetch = none ∧ t = s) ∨ ∃ c r, s.fetch = some (c, r) ∧ serve c r (s.take c) = .next t := by
  cases hfetch : s.fetch with
  | none =>
    rw [step_of_fetch_none hfetch] at h
    cases h
    exact .inl ⟨rfl, rfl⟩
  | some p =>
    rw [step_of_fetch hfetch] at h
    exact .inr ⟨p.1, p.2, rfl, h⟩

/-- The frame of serving a request: parameters, turn and schedule stay, and of the callers at most the one served changes. -/
theorem serve_frame {c : Nat} {r : Request} {s t : State} (h : serve c r s = .next t) :
    t.params = s.params ∧ t.turn = s.turn ∧ t.schedule = s.schedule ∧ ∃ g, t.callers = s.callers.modify c g := by
  rcases serve_eq_next h with ⟨d, u, -, hu, rfl⟩ | ⟨-, m, p, f, g, rfl, -, -, -⟩
  · obtain ⟨ram, rfl⟩ := drvCall_eq_next hu
    exact ⟨rfl, rfl, rfl, _, rfl⟩
  · exact ⟨rfl, rfl, rfl, g, rfl⟩

/-- Settles O46: taking the request up uses the turn and the schedule entry, and both that and serving it change the callers
at the served position only. -/
theorem stepServesOneCaller : Obligations.StepServesOneCaller := by
  intro s t h
  rcases step_eq_next h with ⟨hnone, rfl⟩ | ⟨c, r, hfetch, hserve⟩
  · refine ⟨rfl, fun _ => rfl, fun c r hsome => ?_⟩
    rw [hnone] at hsome
    cases hsome
  · obtain ⟨hparams, hturn, hschedule, g, hcallers⟩ := serve_frame hserve
    refine ⟨hparams, fun hnone => ?_, fun c' r' hsome => ?_⟩
    · rw [hfetch] at hnone
      cases hnone
    · rw [hfetch] at hsome
      cases hsome
      refine ⟨hturn, hschedule, ?_, fun other hother => ?_⟩
      · simp [hcallers]
      · simp [hcallers, Ne.symm hother]

/-- A unit's ports are left alone or driven with a word and its own result, so serving any request keeps them settled. -/
theorem serve_portsSettled {c : Nat} {r : Request} {s t : State} (hs : PortsSettled s) (h : serve c r s = .next t) :
    PortsSettled t := by
  rcases serve_eq_next h with ⟨d, u, -, hu, rfl⟩ | ⟨-, m, p, f, g, rfl, hm, hp, hf⟩
  · obtain ⟨ram, rfl⟩ := drvCall_eq_next hu
    exact hs
  · obtain ⟨hmapper, hpacker, hfiller⟩ := hs
    refine ⟨?_, ?_, ?_⟩
    · rcases hm with rfl | ⟨idx, rfl⟩
      · exact hmapper
      · rfl
    · rcases hp with rfl | ⟨mask, rfl⟩
      · exact hpacker
      · rfl
    · rcases hf with rfl | ⟨k, rfl⟩
      · exact hfiller
      · rfl

/-- Taking a request up moves no word on any port. -/
theorem take_portsSettled {s : State} (c : Nat) (hs : PortsSettled s) : PortsSettled (s.take c) := hs

/-- Settles O49: a step is idle, or takes a request up and serves it, and each of these keeps the ports settled. -/
theorem portsStaySettled : Obligations.PortsStaySettled := by
  intro s t hs h
  rcases step_eq_next h with ⟨-, rfl⟩ | ⟨c, r, -, hserve⟩
  · exact hs
  · exact serve_portsSettled (take_portsSettled c hs) hserve

end Sys2Proof.Machine

/-! ## The Display Driver's calls on the row store (`20_memory.md` sections 1, 2 and 4) -/

namespace Sys2Proof.Machine

/-- The addresses of a chip's rows are the eight from its row 0 up (R41). -/
theorem chip_addr_iff (chip : Int) (a : Nat) :
    (rowAddr chip 0 ≤ a ∧ a < rowAddr chip 0 + Config.chipRows) ↔
      ∃ row : Int, 0 ≤ row ∧ row < 8 ∧ a = rowAddr chip row := by
  simp only [rowAddr, Config.chipRows]
  constructor
  · intro h
    exact ⟨a - chip.toNat * 8, by omega, by omega, by omega⟩
  · rintro ⟨row, h0, h8, rfl⟩
    omega

/-- A row of a chip that exists lies below the bound of the store (R41). -/
theorem rowAddr_lt_of_hasChip {p : Params} {chip row : Int} (hc : hasChip p chip = true) (h0 : 0 ≤ row) (h8 : row < 8) :
    rowAddr chip row < p.nChips * Config.chipRows := by
  obtain ⟨hlo, hhi⟩ := (hasChip_iff p chip).1 hc
  simp only [rowAddr, Config.chipRows]
  omega

/-- A row of the ring is one of the chip's eight rows (R7). -/
theorem isRow_bounds {row : Int} (h : isRow row = true) : 0 ≤ row ∧ row < 8 := by
  obtain ⟨h0, h4⟩ := (isRow_iff row).1 h
  omega

@[simp] theorem rowByte_putRow_same (s : State) (chip row : Int) (v : Byte) :
    (s.putRow chip row v).rowByte chip row = v := by
  simp [State.rowByte]

/-- Writing one row of a chip leaves the bytes of its other rows. -/
theorem rowByte_putRow_other (s : State) {chip row row' : Int} (v : Byte) (hc : 0 ≤ chip) (hr : 0 ≤ row ∧ row < 8)
    (hr' : 0 ≤ row' ∧ row' < 8) (h : row' ≠ row) : (s.putRow chip row v).rowByte chip row' = s.rowByte chip row' :=
  Memory.byteAt_write_other _ _ fun heq => h (rowAddr_inj hc hc hr' hr heq).2

theorem drvWrite_of_exists {chip row : Int} {s : State} (hc : hasChip s.params chip = true) (hr : isRow row = true)
    (v : Byte) : drvWrite chip row v s = .next (s.putRow chip row v) := by
  rw [drvWrite, if_pos hc, if_pos hr]

theorem drvSetLamp_of_exists {chip row col : Int} {s : State} (hs : s.params.hasSetLamp = true)
    (hc : hasChip s.params chip = true) (hr : isRow row = true) (hl : isCol col = true) (lit : Bool) :
    drvSetLamp chip row col lit s =
      .next (s.putRow chip row (withColumn (s.rowByte chip row) col.toNat lit)) := by
  rw [drvSetLamp, if_pos hs, if_pos hc, if_pos hr, if_pos hl]

theorem drvClear_of_exists {chip : Int} {s : State} (hc : hasChip s.params chip = true) :
    drvClear chip s = .next { s with ram := s.ram.fillBytes (rowAddr chip 0) 0x00#8 Config.chipRows } := by
  rw [drvClear, if_pos hc]

/-- The chip that a driver call names. -/
def DrvCall.chip : DrvCall → Int
  | .write chip _ _ => chip
  | .setLamp chip _ _ _ => chip
  | .clear chip => chip

/-- Everything that a driver call can do to the state: one row of the ring on its chip is written, or all eight rows of its
chip are zeroed. -/
theorem drvCall_cases {call : DrvCall} {s t : State} (h : drvCall call s = .next t) :
    hasChip s.params call.chip = true ∧
      ((∃ row v, isRow row = true ∧ t = s.putRow call.chip row v) ∨
        t = { s with ram := s.ram.fillBytes (rowAddr call.chip 0) 0x00#8 Config.chipRows }) := by
  cases call with
  | write chip row v =>
    obtain ⟨hc, hr, ht⟩ := drvWrite_eq_next h
    exact ⟨hc, .inl ⟨row, v, hr, ht⟩⟩
  | setLamp chip row col lit =>
    obtain ⟨-, hc, hr, -, ht⟩ := drvSetLamp_eq_next h
    exact ⟨hc, .inl ⟨row, _, hr, ht⟩⟩
  | clear chip =>
    obtain ⟨hc, ht⟩ := drvClear_eq_next h
    exact ⟨hc, .inr ht⟩

/-- The frame of a driver call: an address that is no row of the call's chip reads as before. -/
theorem drvCall_read?_other {call : DrvCall} {s t : State} (h : drvCall call s = .next t) {a : Nat}
    (ha : ∀ row : Int, 0 ≤ row → row < 8 → a ≠ rowAddr call.chip row) : t.ram.read? a = s.ram.read? a := by
  obtain ⟨-, ⟨row, v, hrow, rfl⟩ | rfl⟩ := drvCall_cases h
  · obtain ⟨h0, h8⟩ := isRow_bounds hrow
    exact Memory.read?_write_other _ _ (ha row h0 h8)
  · have hout : ¬ (rowAddr call.chip 0 ≤ a ∧ a < rowAddr call.chip 0 + Config.chipRows) := by
      rw [chip_addr_iff]
      rintro ⟨row, h0, h8, heq⟩
      exact ha row h0 h8 heq
    rw [Memory.read?_fillBytes, if_neg hout]

/-- Every byte listed after a driver call was listed before or stands in a row of the call's chip. -/
theorem drvCall_mem_ram {call : DrvCall} {s t : State} (h : drvCall call s = .next t) {cell : Host.Cell}
    (hcell : cell ∈ t.ram) : cell ∈ s.ram ∨ ∃ row : Int, 0 ≤ row ∧ row < 8 ∧ cell.1 = rowAddr call.chip row := by
  obtain ⟨-, ⟨row, v, hrow, rfl⟩ | rfl⟩ := drvCall_cases h
  · obtain ⟨h0, h8⟩ := isRow_bounds hrow
    rcases Memory.mem_write hcell with rfl | hold
    · exact .inr ⟨row, h0, h8, rfl⟩
    · exact .inl hold
  · rcases Memory.mem_fillBytes hcell with hin | hold
    · exact .inr ((chip_addr_iff _ _).1 hin)
    · exact .inl hold

/-- A driver call keeps the canonical form. -/
theorem drvCall_wf {call : DrvCall} {s t : State} (hwf : Memory.wf s.ram) (h : drvCall call s = .next t) :
    Memory.wf t.ram := by
  obtain ⟨-, ⟨row, v, -, rfl⟩ | rfl⟩ := drvCall_cases h
  · exact Memory.write_wf hwf _ _
  · exact Memory.fillBytes_wf hwf _ _ _

/-- Settles O31: the existing row is put, and a put row reads back and leaves the other addresses. -/
theorem drvWriteEffect : Obligations.DrvWriteEffect := by
  intro chip row v s hc hr
  exact ⟨_, drvWrite_of_exists hc hr v, rfl, rowByte_putRow_same s chip row v,
    fun a ha => Memory.read?_write_other _ _ ha⟩

/-- Settles O32: the row put back is the old one with one column changed. -/
theorem drvSetLampEffect : Obligations.DrvSetLampEffect := by
  intro chip row col lit s hs hc hr hl
  obtain ⟨h0, h8⟩ := (isCol_iff col).1 hl
  have hcol : col.toNat < 8 := by omega
  refine ⟨_, drvSetLamp_of_exists hs hc hr hl lit, rfl, ?_, fun b hb => ?_,
    fun a ha => Memory.read?_write_other _ _ ha⟩
  · rw [rowByte_putRow_same, withColumn_getLsbD _ hcol, if_pos rfl]
  · rw [rowByte_putRow_same, withColumn_getLsbD _ hcol, if_neg hb]

/-- Settles O33: the chip's rows are the addresses that are filled with 0, and the frame is that of every driver call. -/
theorem drvClearEffect : Obligations.DrvClearEffect := by
  intro chip s hc
  have hnext : drvCall (.clear chip) s = _ := drvClear_of_exists hc
  refine ⟨_, hnext, rfl, fun row h0 h8 => ?_, fun a ha => drvCall_read?_other hnext ha⟩
  have hin := (chip_addr_iff chip (rowAddr chip row)).2 ⟨row, h0, h8, rfl⟩
  rw [State.rowByte, Memory.byteAt_fillBytes, if_pos hin]

/-- Settles O35: rows of another chip are outside the frame of the call. -/
theorem chipsAreDisjoint : Obligations.ChipsAreDisjoint := by
  intro call s t chip other row h hform hother hne h0 h8
  have hchip : call.chip = chip := by
    rcases hform with rfl | ⟨r, v, rfl⟩ | ⟨r, c, l, rfl⟩ <;> rfl
  have hpos : 0 ≤ call.chip := ((hasChip_iff _ _).1 (drvCall_cases h).1).1
  refine drvCall_read?_other h fun row' h0' h8' heq => hne ?_
  exact (rowAddr_inj hother hpos ⟨h0, h8⟩ ⟨h0', h8'⟩ heq).1.trans hchip

/-- Writing a byte where it already stands changes nothing. -/
theorem Memory.write_write_same {m : Memory} (h : Memory.wf m) (a : Nat) (v : Byte) :
    (m.write a v).write a v = m.write a v := by
  have hwf := Memory.write_wf h a v
  refine Memory.ext_read? (Memory.write_wf hwf a v) hwf fun b => ?_
  rw [Memory.read?_write]
  split
  · next hb => rw [hb, Memory.read?_write_same]
  · rfl

/-- Filling a stretch with the byte that already fills it changes nothing. -/
theorem Memory.fillBytes_fillBytes_same {m : Memory} (h : Memory.wf m) (a : Nat) (v : Byte) (n : Nat) :
    (m.fillBytes a v n).fillBytes a v n = m.fillBytes a v n := by
  have hwf := Memory.fillBytes_wf h a v n
  refine Memory.ext_read? (Memory.fillBytes_wf hwf a v n) hwf fun b => ?_
  rw [Memory.read?_fillBytes]
  split
  · next hb => rw [Memory.read?_fillBytes, if_pos hb]
  · rfl

theorem putRow_putRow_same {s : State} (h : Memory.wf s.ram) (chip row : Int) (v : Byte) :
    (s.putRow chip row v).putRow chip row v = s.putRow chip row v := by
  simp only [State.putRow, Memory.write_write_same h]

/-- Lighting a lit lamp, or darkening a dark one, changes nothing. -/
theorem withColumn_withColumn_same (old : Byte) (col : Nat) (lit : Bool) :
    withColumn (withColumn old col lit) col lit = withColumn old col lit := by
  cases lit with
  | true => simp only [withColumn, if_true, BitVec.or_assoc, BitVec.or_self]
  | false => simp [withColumn, BitVec.and_assoc]

/-- Settles O36: the call answers from the state after it, since the parameters are the same, and writes what already stands
there. -/
theorem callsAreIdempotent : Obligations.CallsAreIdempotent := by
  intro call s t hwf h
  cases call with
  | write chip row v =>
    obtain ⟨hc, hr, rfl⟩ := drvWrite_eq_next h
    exact (drvWrite_of_exists (s := s.putRow chip row v) hc hr v).trans
      (congrArg _ (putRow_putRow_same hwf chip row v))
  | setLamp chip row col lit =>
    obtain ⟨hs, hc, hr, hl, rfl⟩ := drvSetLamp_eq_next h
    refine (drvSetLamp_of_exists (s := s.putRow chip row _) hs hc hr hl lit).trans ?_
    rw [rowByte_putRow_same, withColumn_withColumn_same, putRow_putRow_same hwf]
  | clear chip =>
    obtain ⟨hc, rfl⟩ := drvClear_eq_next h
    simp only [drvCall, drvClear, hc, if_true, Memory.fillBytes_fillBytes_same hwf]

/-- Settles O34: each refusal is the first test of the call that fails, in the order setLamp, chip, row, column. -/
theorem driverRefusesWhatDoesNotExist : Obligations.DriverRefusesWhatDoesNotExist := by
  refine ⟨fun chip row col v lit s hchip => ?_, fun chip row col v lit s hc hrow => ?_,
    fun chip row col lit s hc hrow hcol hs => ?_, fun chip row col lit s hs => ?_⟩
  · have hc := mt (hasChip_iff s.params chip).1 hchip
    exact ⟨if_neg hc, fun hs => (if_pos hs).trans (if_neg hc), if_neg hc⟩
  · have hr := mt (isRow_iff row).1 hrow
    exact ⟨(if_pos hc).trans (if_neg hr), fun hs => (if_pos hs).trans ((if_pos hc).trans (if_neg hr))⟩
  · have hr := (isRow_iff row).2 hrow
    have hl := mt (isCol_iff col).1 hcol
    exact (if_pos hs).trans ((if_pos hc).trans ((if_pos hr).trans (if_neg hl)))
  · exact if_neg (by simp [hs])

end Sys2Proof.Machine

/-! ## The row store and the callers along a step (`20_memory.md` sections 1, 4 and 5) -/

namespace Sys2Proof.Machine

/-- Settles O43: taking a request up leaves the store, and so does serving one that is no driver call. -/
theorem onlyDriverCallsStore : Obligations.OnlyDriverCallsStore := by
  intro s t h hno
  rcases step_eq_next h with ⟨-, rfl⟩ | ⟨c, r, hfetch, hserve⟩
  · rfl
  · rcases serve_eq_next hserve with ⟨d, u, rfl, -, -⟩ | ⟨-, m, p, f, g, rfl, -, -, -⟩
    · exact absurd hfetch (hno c d)
    · rfl

/-- A driver call lists only rows of its own chip, which exists, and keeps the canonical form. -/
theorem drvCall_storeInBounds {call : DrvCall} {s t : State} (hs : StoreInBounds s) (h : drvCall call s = .next t) :
    StoreInBounds t := by
  obtain ⟨hwf, hbound⟩ := hs
  refine ⟨drvCall_wf hwf h, fun cell hcell => ?_⟩
  have hparams : t.params = s.params := by
    obtain ⟨m, rfl⟩ := drvCall_eq_next h
    rfl
  rw [hparams]
  rcases drvCall_mem_ram h hcell with hold | ⟨row, h0, h8, heq⟩
  · exact hbound cell hold
  · rw [heq]
    exact rowAddr_lt_of_hasChip (drvCall_cases h).1 h0 h8

/-- Taking a request up touches neither the store nor the parameters. -/
theorem take_storeInBounds {s : State} (c : Nat) (hs : StoreInBounds s) : StoreInBounds (s.take c) := hs

/-- Serving a request touches the store through a driver call only. -/
theorem serve_storeInBounds {c : Nat} {r : Request} {s t : State} (hs : StoreInBounds s) (h : serve c r s = .next t) :
    StoreInBounds t := by
  rcases serve_eq_next h with ⟨d, u, -, hu, rfl⟩ | ⟨-, m, p, f, g, rfl, -, -, -⟩
  · have hstore : StoreInBounds u := drvCall_storeInBounds hs hu
    exact hstore
  · exact hs

/-- Settles O50: a step is idle, or takes a request up and serves it, and each of these keeps the store in bounds. -/
theorem storeStaysInBounds : Obligations.StoreStaysInBounds := by
  intro s t hs h
  rcases step_eq_next h with ⟨-, rfl⟩ | ⟨c, r, -, hserve⟩
  · exact hs
  · exact serve_storeInBounds (take_storeInBounds c hs) hserve

/-- A call that names what exists answers (R51, R61). -/
theorem drvCall_of_admissible {call : DrvCall} {s : State} (h : call.admissible s.params = true) :
    ∃ t, drvCall call s = .next t := by
  cases call with
  | write chip row v =>
    obtain ⟨hc, hr⟩ : hasChip s.params chip = true ∧ isRow row = true := by
      simpa [DrvCall.admissible] using h
    exact ⟨_, drvWrite_of_exists hc hr v⟩
  | setLamp chip row col lit =>
    obtain ⟨⟨⟨hs, hc⟩, hr⟩, hl⟩ :
        ((s.params.hasSetLamp = true ∧ hasChip s.params chip = true) ∧ isRow row = true) ∧ isCol col = true := by
      simpa [DrvCall.admissible] using h
    exact ⟨_, drvSetLamp_of_exists hs hc hr hl lit⟩
  | clear chip => exact ⟨_, drvClear_of_exists h⟩

/-- Every row that a coordinate can name is a row of the ring. -/
theorem isRow_coord (r : BitVec 2) : isRow r.toNat = true := by
  have hlt := r.isLt
  exact (isRow_iff _).2 (by omega)

/-- Every column that a coordinate can name is a column of a row. -/
theorem isCol_coord (c : BitVec 3) : isCol c.toNat = true := by
  have hlt := c.isLt
  exact (isCol_iff _).2 (by omega)

theorem fullCalls_admissible {p : Params} {chip : Int} (hc : hasChip p chip = true) (rows : Rows) :
    ∀ r ∈ fullCalls chip rows, r.admissible p = true := by
  have h0 : isRow 0 = true := by decide
  have h1 : isRow 1 = true := by decide
  have h2 : isRow 2 = true := by decide
  have h3 : isRow 3 = true := by decide
  simp [fullCalls, Request.admissible, DrvCall.admissible, hc, h0, h1, h2, h3]

/-- The one call of a single-lamp update is in the form that the driver offers, at a row and a column that exist. -/
theorem lampCall_admissible {s : State} {chip : Int} (hc : hasChip s.params chip = true) (place : Coord) (lit : Bool) :
    (lampCall chip place lit s).admissible s.params = true := by
  unfold lampCall
  split
  · next hs =>
    simp [Request.admissible, DrvCall.admissible, hs, hc, isRow_coord, isCol_coord]
  · simp [Request.admissible, DrvCall.admissible, hc, isRow_coord]

/-- An evaluation of a unit touches no caller. -/
theorem exec_callers {i : Instr} {s t : State} (h : exec i s = .next t) : t.callers = s.callers := by
  cases i <;> cases h <;> rfl

/-- A request that names what exists is served, and what it puts before its caller's later requests names what exists. -/
theorem serve_of_admissible {r : Request} {s : State} (c : Nat) (h : r.admissible s.params = true) :
    ∃ t rest reply, serve c r s = .next t ∧
      (t.callers = s.callers.modify c fun caller => { pending := rest ++ caller.pending, reply := reply }) ∧
      ∀ q ∈ rest, q.admissible s.params = true := by
  cases r with
  | word port bytes =>
    cases hd : decode port bytes with
    | error e => simp [Request.admissible, hd, Except.isOk, Except.toBool] at h
    | ok i =>
      obtain ⟨t, ht⟩ := exec_eq_next i s
      refine ⟨_, [], some (replyTo i t), serve_word hd ht, ?_, by simp⟩
      rw [giveReply_callers, exec_callers ht]
      rfl
  | updateFull chip mask =>
    exact ⟨_, _, _, serve_updateFull c chip mask s, rfl, fullCalls_admissible h _⟩
  | updateLamp chip idx lit =>
    cases hm : mapWord idx with
    | ok place =>
      refine ⟨_, _, _, serve_updateLamp_ok hm, rfl, ?_⟩
      simpa using lampCall_admissible (s := s.driveMapper idx (.ok place)) h place lit
    | indexOutOfRange => exact ⟨_, [], _, serve_updateLamp_error hm, rfl, by simp⟩
  | updateArc chip k =>
    cases hm : fillWord k with
    | ok mask => exact ⟨_, _, _, serve_updateArc_ok hm, rfl, by simpa [Request.admissible] using h⟩
    | indexOutOfRange => exact ⟨_, [], _, serve_updateArc_error hm, rfl, by simp⟩
  | recomputeLamp chip held idx lit =>
    cases hm : mapWord idx with
    | ok place =>
      refine ⟨_, _, _, serve_recomputeLamp_ok hm, rfl, ?_⟩
      have hc : hasChip s.params chip = true := h
      simp [Request.admissible, DrvCall.admissible, hc, isRow_coord]
    | indexOutOfRange => exact ⟨_, [], _, serve_recomputeLamp_error hm, rfl, by simp⟩
  | call d =>
    obtain ⟨u, hu⟩ := drvCall_of_admissible h
    refine ⟨_, [], some .done, serve_call hu, ?_, by simp⟩
    obtain ⟨m, rfl⟩ := drvCall_eq_next hu
    rfl

/-- Changing one caller keeps all requests admissible when every request it then has was its own or is admissible. -/
theorem allAdmissible_of_modify {s t : State} {c : Nat} {g : Caller → Caller} (hs : AllAdmissible s)
    (hparams : t.params = s.params) (hcallers : t.callers = s.callers.modify c g)
    (hg : ∀ caller, ∀ r ∈ (g caller).pending, r ∈ caller.pending ∨ r.admissible s.params = true) :
    AllAdmissible t := by
  intro caller hcaller r hr
  rw [hcallers, List.mem_iff_getElem?] at hcaller
  obtain ⟨i, hi⟩ := hcaller
  rw [List.getElem?_modify] at hi
  obtain ⟨old, hold, rfl⟩ := Option.map_eq_some_iff.1 hi
  have hmem : old ∈ s.callers := List.mem_of_getElem? hold
  rw [hparams]
  split at hr
  · rcases hg old r hr with hown | hadm
    · exact hs old hmem r hown
    · exact hadm
  · exact hs old hmem r hr

/-- The requests left once one has been taken up were there before. -/
theorem take_allAdmissible {s : State} (c : Nat) (hs : AllAdmissible s) : AllAdmissible (s.take c) :=
  allAdmissible_of_modify hs rfl rfl fun _ _ hr => .inl (List.mem_of_mem_tail hr)

/-- Serving a request that names what exists goes on with requests of the same kind. -/
theorem serve_allAdmissible {s : State} {r : Request} (c : Nat) (hs : AllAdmissible s)
    (hr : r.admissible s.params = true) : ∃ t, serve c r s = .next t ∧ AllAdmissible t := by
  obtain ⟨t, rest, reply, hserve, hcallers, hrest⟩ := serve_of_admissible c hr
  refine ⟨t, hserve, allAdmissible_of_modify hs (serve_frame hserve).1 hcallers fun caller q hq => ?_⟩
  rcases List.mem_append.1 hq with hnew | hown
  · exact .inr (hrest q hnew)
  · exact .inl hown

/-- What is fetched from a machine asked only for what exists names what exists. -/
theorem fetch_admissible {s : State} {c : Nat} {r : Request} (hs : AllAdmissible s) (h : s.fetch = some (c, r)) :
    r.admissible s.params = true := by
  obtain ⟨caller, rest, hcaller, hpending⟩ := pending_of_fetch h
  refine hs caller (List.mem_of_getElem? hcaller) r ?_
  rw [hpending]
  exact List.mem_cons_self

/-- Settles O51: an idle step changes nothing, and a fetched request names what exists, so that it is served. -/
theorem admissibleNeverStops : Obligations.AdmissibleNeverStops := by
  intro s hs
  cases hfetch : s.fetch with
  | none => exact ⟨s, step_of_fetch_none hfetch, hs⟩
  | some p =>
    obtain ⟨c, r⟩ := p
    have hr : r.admissible s.params = true := fetch_admissible hs hfetch
    rw [step_of_fetch hfetch]
    exact serve_allAdmissible c (take_allAdmissible c hs) hr

/-- Of the ready callers, the draw picks the one at its position. -/
theorem chosen_of_draw_lt {s : State} (h : s.draw < s.ready.length) : s.chosen = some s.ready[s.draw] := by
  unfold State.chosen
  split
  · next hnone => simp [hnone] at h
  · next c hone =>
    have hdraw : s.draw = 0 := by
      simpa [hone] using h
    simp [hone, hdraw]
  · rw [Nat.mod_eq_of_lt h, List.getElem?_eq_getElem h]

/-- Settles O47: the entry is the caller's position among the ready ones. -/
theorem everyReadyCallerCanMoveNext : Obligations.EveryReadyCallerCanMoveNext := by
  intro s c hpending
  obtain ⟨k, hk, hkc⟩ := List.getElem_of_mem ((mem_ready s c).2 hpending)
  refine ⟨k, fun later => ?_⟩
  exact (chosen_of_draw_lt (s := { s with schedule := k :: later }) hk).trans (congrArg some hkc)

end Sys2Proof.Machine

/-! ## Two full-state updates of one chip, in every interleaving (`20_memory.md` sections 4 and 5) -/

namespace Sys2Proof.Machine

/-- Where some caller has a request pending, a request is fetched. -/
theorem exists_fetch_of_mem_ready {s : State} {c : Nat} (h : c ∈ s.ready) : ∃ c' r, s.fetch = some (c', r) := by
  have hsome : s.chosen ≠ none := fun hnone => by
    rw [(chosen_eq_none_iff s).1 hnone] at h
    cases h
  obtain ⟨c', hc'⟩ := Option.ne_none_iff_exists'.1 hsome
  obtain ⟨caller, hcaller, hpending⟩ := (mem_ready s c').1 (mem_ready_of_chosen hc')
  obtain ⟨r, rest, hcons⟩ := List.exists_cons_of_ne_nil hpending
  exact ⟨c', r, by simp [State.fetch, hc', hcaller, hcons]⟩

/-- What a caller that asks UPDATE_FULL has still to issue after some of its five steps: PACK, then rows 0 to 3 (R161). -/
def fullRest (chip : Int) (mask : Mask) : Nat → List Request
  | 0 => [.updateFull chip mask]
  | n + 1 => (fullCalls chip (packRows mask)).drop n

/-- After PACK and the rows below `r`, the write of row `r` comes next. -/
theorem fullRest_row (chip : Int) (mask : Mask) (r : BitVec 2) :
    fullRest chip mask (r.toNat + 1) =
      .call (.write chip r.toNat (rowOf (packRows mask) r)) :: fullRest chip mask (r.toNat + 2) := by
  match r with
  | 0#2 => rfl
  | 1#2 => rfl
  | 2#2 => rfl
  | 3#2 => rfl

theorem fullRest_eq_nil_iff (chip : Int) (mask : Mask) (n : Nat) : fullRest chip mask n = [] ↔ 5 ≤ n := by
  cases n with
  | zero => simp [fullRest]
  | succ n => simp [fullRest, fullCalls]

/-- Callers that each ask UPDATE_FULL of one chip, caller `c` of `masks c`, are under way: caller `c` has taken `done c` of its
five steps, and a row that any of them has written holds the byte of one of them. -/
structure FullUpdatesUnderWay (chip : Int) (masks : Nat → Mask) (done : Nat → Nat) (s : State) : Prop where
  chipExists : hasChip s.params chip = true
  pending : ∀ c caller, s.callers[c]? = some caller →
    done c ≤ 5 ∧ caller.pending = fullRest chip (masks c) (done c)
  written : ∀ c, ∀ r : BitVec 2, r.toNat + 1 < done c →
    ∃ writer, s.rowByte chip r.toNat = rowOf (packRows (masks writer)) r

/-- The steps taken once caller `c` has taken one more. -/
def advance (done : Nat → Nat) (c : Nat) : Nat → Nat := Function.update done c (done c + 1)

@[simp] theorem advance_same (done : Nat → Nat) (c : Nat) : advance done c c = done c + 1 := by
  simp [advance]

theorem advance_other (done : Nat → Nat) {c c' : Nat} (h : c' ≠ c) : advance done c c' = done c' := by
  simp [advance, h]

section
variable {chip : Int} {masks : Nat → Mask} {done : Nat → Nat} {s t : State} {c : Nat} {r : Request}

/-- The caller whose request is fetched is not done, and the request is the next of its update. -/
theorem FullUpdatesUnderWay.fetched (h : FullUpdatesUnderWay chip masks done s) (hfetch : s.fetch = some (c, r)) :
    done c < 5 ∧ ∃ rest, fullRest chip (masks c) (done c) = r :: rest := by
  obtain ⟨caller, rest, hcaller, hcons⟩ := pending_of_fetch hfetch
  obtain ⟨-, hpending⟩ := h.pending c caller hcaller
  have hrest := hpending.symm.trans hcons
  refine ⟨?_, rest, hrest⟩
  by_contra hge
  rw [(fullRest_eq_nil_iff _ _ _).2 (by omega)] at hrest
  cases hrest

/-- A step of caller `c` that leaves it with the rest of its update leaves every caller with the rest of its own. -/
theorem FullUpdatesUnderWay.pending_advance (h : FullUpdatesUnderWay chip masks done s) (hlt : done c < 5)
    {g : Caller → Caller} (hcallers : t.callers = s.callers.modify c g)
    (hg : ∀ caller, caller.pending = fullRest chip (masks c) (done c) →
      (g caller).pending = fullRest chip (masks c) (done c + 1)) :
    ∀ c' caller, t.callers[c']? = some caller →
      advance done c c' ≤ 5 ∧ caller.pending = fullRest chip (masks c') (advance done c c') := by
  intro c' caller hcaller
  rw [hcallers, List.getElem?_modify] at hcaller
  obtain ⟨old, hold, rfl⟩ := Option.map_eq_some_iff.1 hcaller
  obtain ⟨hle, hpending⟩ := h.pending c' old hold
  by_cases hc : c' = c
  · subst hc
    simpa using ⟨hlt, hg old hpending⟩
  · simpa [advance_other done hc, Ne.symm hc] using ⟨hle, hpending⟩

/-- The first step of an update evaluates PACK and writes no row. -/
theorem FullUpdatesUnderWay.step_pack (h : FullUpdatesUnderWay chip masks done s)
    (hfetch : s.fetch = some (c, .updateFull chip (masks c))) (hdone : done c = 0) :
    ∃ t, step s = .next t ∧ FullUpdatesUnderWay chip masks (advance done c) t := by
  refine ⟨_, (step_of_fetch hfetch).trans (serve_updateFull c chip (masks c) (s.take c)), h.chipExists, ?_, ?_⟩
  · refine h.pending_advance (by omega) ?_ (g := fun caller =>
      { pending := fullRest chip (masks c) 1 ++ caller.pending.tail, reply := none }) ?_
    · simp [List.modify_modify_eq, Function.comp_def, fullRest]
    · intro caller hcaller
      simp [hcaller, hdone, fullRest]
  · intro c' r hr
    refine h.written c' r ?_
    by_cases hc : c' = c
    · subst hc
      simp [hdone] at hr
    · rwa [advance_other done hc] at hr

/-- A later step of an update writes the next row with the caller's own byte, and keeps the other rows. -/
theorem FullUpdatesUnderWay.step_row (h : FullUpdatesUnderWay chip masks done s) {row : BitVec 2}
    (hfetch : s.fetch = some (c, .call (.write chip row.toNat (rowOf (packRows (masks c)) row))))
    (hdone : done c = row.toNat + 1) :
    ∃ t, step s = .next t ∧ FullUpdatesUnderWay chip masks (advance done c) t := by
  have hrow := row.isLt
  have hcall : drvCall (.write chip row.toNat (rowOf (packRows (masks c)) row)) (s.take c) = _ :=
    drvWrite_of_exists (s := s.take c) h.chipExists (isRow_coord row) _
  refine ⟨_, (step_of_fetch hfetch).trans (serve_call hcall), h.chipExists, ?_, ?_⟩
  · refine h.pending_advance (by omega) ?_ (g := fun caller =>
      { pending := caller.pending.tail, reply := some .done }) ?_
    · simp [List.modify_modify_eq, Function.comp_def]
    · intro caller hcaller
      simp [hcaller, hdone, fullRest_row]
  · intro c' r hr
    have hlt := r.isLt
    by_cases heq : r = row
    · subst heq
      exact ⟨c, rowByte_putRow_same (s.take c) chip r.toNat _⟩
    · have hne : r.toNat ≠ row.toNat := fun h => heq (BitVec.eq_of_toNat_eq h)
      have hold : r.toNat + 1 < done c' := by
        by_cases hc : c' = c
        · subst hc
          rw [advance_same] at hr
          omega
        · rwa [advance_other done hc] at hr
      obtain ⟨writer, hwriter⟩ := h.written c' r hold
      refine ⟨writer, Eq.trans ?_ hwriter⟩
      exact rowByte_putRow_other (s.take c) _ ((hasChip_iff _ _).1 h.chipExists).1 (isRow_bounds (isRow_coord row))
        (isRow_bounds (isRow_coord r)) (by omega)

/-- A step serves one caller's next step of its update, and the updates stay under way. -/
theorem FullUpdatesUnderWay.step_next (h : FullUpdatesUnderWay chip masks done s) (hfetch : s.fetch = some (c, r)) :
    ∃ t, step s = .next t ∧ FullUpdatesUnderWay chip masks (advance done c) t := by
  obtain ⟨hlt, rest, hrest⟩ := h.fetched hfetch
  cases hdone : done c with
  | zero =>
    rw [hdone] at hrest
    cases hrest
    exact h.step_pack hfetch hdone
  | succ n =>
    have hn : (BitVec.ofNat 2 n).toNat = n := Nat.mod_eq_of_lt (by omega)
    have hrow : done c = (BitVec.ofNat 2 n).toNat + 1 := by omega
    rw [hrow, fullRest_row] at hrest
    cases hrest
    exact h.step_row hfetch hrow

theorem FullUpdatesUnderWay.done_le (h : FullUpdatesUnderWay chip masks done s) (hc : c < s.callers.length) :
    done c ≤ 5 :=
  (h.pending c _ (List.getElem?_eq_getElem hc)).1

/-- A caller that is not done is ready. -/
theorem FullUpdatesUnderWay.mem_ready_of_lt (h : FullUpdatesUnderWay chip masks done s) (hc : c < s.callers.length)
    (hlt : done c < 5) : c ∈ s.ready := by
  have hcaller := List.getElem?_eq_getElem hc
  refine (mem_ready s c).2 ⟨_, hcaller, ?_⟩
  rw [(h.pending c _ hcaller).2, ne_eq, fullRest_eq_nil_iff]
  omega

/-- The steps that two callers have taken grow by one with a step of either. -/
theorem advance_sum_two (done : Nat → Nat) (hc : c < 2) :
    advance done c 0 + advance done c 1 = done 0 + done 1 + 1 := by
  obtain rfl | rfl : c = 0 ∨ c = 1 := by omega
  · rw [advance_same, advance_other done (by decide)]
    omega
  · rw [advance_same, advance_other done (by decide)]
    omega

/-- Two updates under way that have between them `k` steps left are both done after `k` steps, whoever moves when. -/
theorem FullUpdatesUnderWay.steps_two (k : Nat) (h : FullUpdatesUnderWay chip masks done s)
    (htwo : s.callers.length = 2) (hk : done 0 + done 1 + k = 10) :
    ∃ t done', steps k s = some t ∧ FullUpdatesUnderWay chip masks done' t ∧ t.callers.length = 2 ∧
      done' 0 = 5 ∧ done' 1 = 5 := by
  induction k generalizing s done with
  | zero =>
    have hle0 := h.done_le (c := 0) (by omega)
    have hle1 := h.done_le (c := 1) (by omega)
    exact ⟨s, done, rfl, h, htwo, by omega, by omega⟩
  | succ k ih =>
    have hready : ∃ c, c ∈ s.ready := by
      by_cases h0 : done 0 < 5
      · exact ⟨0, h.mem_ready_of_lt (by omega) h0⟩
      · exact ⟨1, h.mem_ready_of_lt (by omega) (by omega)⟩
    obtain ⟨c, r, hfetch⟩ := hready.elim fun _ => exists_fetch_of_mem_ready
    obtain ⟨t, hstep, ht⟩ := h.step_next hfetch
    obtain ⟨-, -, hserved⟩ := stepServesOneCaller s t hstep
    obtain ⟨-, -, hlength, -⟩ := hserved c r hfetch
    obtain ⟨caller, -, hcaller, -⟩ := pending_of_fetch hfetch
    have hc : c < 2 := htwo ▸ (List.getElem?_eq_some_iff.1 hcaller).1
    have hsum := advance_sum_two done hc
    simp only [steps, hstep]
    exact ih ht (hlength.trans htwo) (by omega)

end

/-- The four Row Bytes, read by row number. -/
theorem rowOf_ringRows (s : State) (chip : Int) (r : BitVec 2) : rowOf (ringRows s chip) r = s.rowByte chip r.toNat := by
  match r with
  | 0#2 => rfl
  | 1#2 => rfl
  | 2#2 => rfl
  | 3#2 => rfl

/-- The masks of two callers, the first one's and the other's. -/
def twoMasks (a b : Mask) (c : Nat) : Mask := if c = 0 then a else b

/-- Before the first step of two updates nothing has been written. -/
theorem fullUpdatesUnderWay_start {s : State} {chip : Int} {a b : Mask} {replyA replyB : Option Reply}
    (hc : hasChip s.params chip = true)
    (hcallers : s.callers =
      [{ pending := [.updateFull chip a], reply := replyA }, { pending := [.updateFull chip b], reply := replyB }]) :
    FullUpdatesUnderWay chip (twoMasks a b) (fun _ => 0) s := by
  refine ⟨hc, fun c caller hcaller => ⟨by omega, ?_⟩, fun c r hr => absurd hr (by omega)⟩
  rw [hcallers] at hcaller
  match c, hcaller with
  | 0, hcaller => cases hcaller; rfl
  | 1, hcaller => cases hcaller; rfl

/-- Settles O58: ten steps are what the two updates have between them, and once both are done every row has been written. -/
theorem interleavedUpdatesMixWholeRows : Obligations.InterleavedUpdatesMixWholeRows := by
  intro s chip a b replyA replyB hc hcallers
  have hstart := fullUpdatesUnderWay_start hc hcallers
  obtain ⟨t, done, hsteps, ht, htwo, h0, h1⟩ := hstart.steps_two 10 (by simp [hcallers]) (by omega)
  refine ⟨t, hsteps, fun caller hcaller => ?_, fun r => ?_⟩
  · obtain ⟨c, hlt, hget⟩ := List.getElem_of_mem hcaller
    obtain ⟨-, hpending⟩ := ht.pending c caller (hget ▸ List.getElem?_eq_getElem hlt)
    rw [hpending, fullRest_eq_nil_iff]
    obtain rfl | rfl : c = 0 ∨ c = 1 := by omega
    · omega
    · omega
  · have hlt := r.isLt
    obtain ⟨writer, hwriter⟩ := ht.written 0 r (by omega)
    rw [rowOf_ringRows, hwriter, twoMasks]
    split
    · exact .inl rfl
    · exact .inr rfl

/-- Two callers at reset that ask UPDATE_FULL of chip 0, with masks whose rows are all 0xF0 and all 0x0F, and the order in
which they are to move. -/
def mixtureStart (schedule : List Nat) : State :=
  { State.reset with
    callers := [{ pending := [.updateFull 0 0xFFFF0000#32], reply := none },
                { pending := [.updateFull 0 0x0000FFFF#32], reply := none }]
    schedule := schedule }

/-- Both callers evaluate PACK; then they write row after row, and the caller whose byte is to stay writes second. -/
def mixtureSchedule (pick : BitVec 4) : List Nat :=
  [0, 1] ++ (List.range 4).flatMap fun row => if pick.getLsbD row then [1, 0] else [0, 1]

/-- The row bytes that the picked callers leave. -/
def mixtureRows (pick : BitVec 4) : Rows :=
  { row0 := if pick.getLsbD 0 then 0xF0#8 else 0x0F#8
    row1 := if pick.getLsbD 1 then 0xF0#8 else 0x0F#8
    row2 := if pick.getLsbD 2 then 0xF0#8 else 0x0F#8
    row3 := if pick.getLsbD 3 then 0xF0#8 else 0x0F#8 }

theorem rowOf_mixtureRows (pick : BitVec 4) (r : BitVec 2) :
    rowOf (mixtureRows pick) r = if pick.getLsbD r.toNat then 0xF0#8 else 0x0F#8 := by
  match r with
  | 0#2 => rfl
  | 1#2 => rfl
  | 2#2 => rfl
  | 3#2 => rfl

/-- Each of the 16 schedules runs to its own mixture. -/
theorem mixtureSchedule_ends (pick : BitVec 4) :
    (steps 10 (mixtureStart (mixtureSchedule pick))).map (fun t => ringRows t 0) = some (mixtureRows pick) := by
  revert pick
  decide

/-- Settles O59: the schedule that lets the picked caller of each row write second ends with the mixture. -/
theorem everyMixtureIsReachable : Obligations.EveryMixtureIsReachable := by
  intro pick
  obtain ⟨t, hsteps, hrows⟩ := Option.map_eq_some_iff.1 (mixtureSchedule_ends pick)
  refine ⟨mixtureSchedule pick, t, hsteps, fun r => ?_⟩
  rw [hrows, rowOf_mixtureRows]

end Sys2Proof.Machine

/-! ## The words on the ports: decoding and encoding (`30_encoding.md` sections 3 to 5) -/

namespace Sys2Proof

/-- A word of one byte is its own byte 0. -/
@[simp] theorem byteOfWord_byte (b : Byte) : byteOfWord b 0 = b :=
  BitVec.extractLsb'_eq_self

/-- Neighbouring slices join to one slice, so that the four bytes of a word, joined again, are the whole word (R49). -/
theorem wordOfBytes_byteOfWord (mask : Mask) :
    wordOfBytes (byteOfWord mask 0) (byteOfWord mask 1) (byteOfWord mask 2) (byteOfWord mask 3) = mask := by
  have hupper : mask.extractLsb' 24 8 ++ mask.extractLsb' 16 8 = mask.extractLsb' 16 16 :=
    BitVec.extractLsb'_append_extractLsb'_eq_extractLsb' rfl
  have hmiddle : mask.extractLsb' 16 16 ++ mask.extractLsb' 8 8 = mask.extractLsb' 8 24 :=
    BitVec.extractLsb'_append_extractLsb'_eq_extractLsb' rfl
  have hlower : mask.extractLsb' 8 24 ++ mask.extractLsb' 0 8 = mask.extractLsb' 0 32 :=
    BitVec.extractLsb'_append_extractLsb'_eq_extractLsb' rfl
  calc wordOfBytes (byteOfWord mask 0) (byteOfWord mask 1) (byteOfWord mask 2) (byteOfWord mask 3)
      = mask.extractLsb' 24 8 ++ mask.extractLsb' 16 8 ++ mask.extractLsb' 8 8 ++ mask.extractLsb' 0 8 := rfl
    _ = mask.extractLsb' 0 32 := by rw [hupper, hmiddle, hlower]
    _ = mask := BitVec.extractLsb'_eq_self

section
variable (b0 b1 b2 b3 : Byte)

@[simp] theorem byteOfWord_wordOfBytes_zero : byteOfWord (wordOfBytes b0 b1 b2 b3) 0 = b0 :=
  BitVec.extractLsb'_append_eq_right

@[simp] theorem byteOfWord_wordOfBytes_one : byteOfWord (wordOfBytes b0 b1 b2 b3) 1 = b1 :=
  (BitVec.extractLsb'_append_eq_of_le (le_refl 8)).trans BitVec.extractLsb'_append_eq_right

@[simp] theorem byteOfWord_wordOfBytes_two : byteOfWord (wordOfBytes b0 b1 b2 b3) 2 = b2 :=
  (BitVec.extractLsb'_append_eq_of_le (by decide)).trans
    ((BitVec.extractLsb'_append_eq_of_le (le_refl 8)).trans BitVec.extractLsb'_append_eq_right)

@[simp] theorem byteOfWord_wordOfBytes_three : byteOfWord (wordOfBytes b0 b1 b2 b3) 3 = b3 :=
  (BitVec.extractLsb'_append_eq_of_le (by decide)).trans
    ((BitVec.extractLsb'_append_eq_of_le (by decide)).trans BitVec.extractLsb'_append_eq_left)

end

/-- Everything that the decoder accepts: one byte on `map_idx` or `fill_k`, four on `pack_mask`. -/
theorem decode_eq_ok {port : Port} {bytes : List Byte} {i : Instr} (h : decode port bytes = .ok i) :
    (∃ b, port = .mapIdx ∧ bytes = [b] ∧ i = .map b) ∨
    (∃ b, port = .fillK ∧ bytes = [b] ∧ i = .fill b) ∨
    (∃ b0 b1 b2 b3, port = .packMask ∧ bytes = [b0, b1, b2, b3] ∧ i = .pack (wordOfBytes b0 b1 b2 b3)) := by
  unfold decode at h
  split at h
  · next b => cases h; exact .inl ⟨b, rfl, rfl, rfl⟩
  · next b => cases h; exact .inr (.inl ⟨b, rfl, rfl, rfl⟩)
  · next b0 b1 b2 b3 => cases h; exact .inr (.inr ⟨b0, b1, b2, b3, rfl, rfl, rfl⟩)
  · cases h

/-- Bytes that are no operation are rejected for one reason only. -/
theorem decode_eq_error {port : Port} {bytes : List Byte} (h : ∀ i, decode port bytes ≠ .ok i) :
    decode port bytes = .error (.wrongWidth port bytes.length) := by
  unfold decode at h ⊢
  split
  · exact absurd rfl (h _)
  · exact absurd rfl (h _)
  · exact absurd rfl (h _)
  · rfl

/-- In the operation map the port settles the width: 32 bits on `pack_mask`, 8 bits on the other two (R79). -/
theorem width_of_mem_opcodeTable {row : OpRow} (hrow : row ∈ opcodeTable) :
    row.width = if row.port = .packMask then 32 else 8 := by
  simp only [opcodeTable, List.mem_cons, List.not_mem_nil, or_false] at hrow
  rcases hrow with rfl | rfl | rfl <;> rfl

/-- On the port of each row of the operation map, the words of the row's width are operations, and no others (R83). -/
theorem exists_decode_iff {row : OpRow} (hrow : row ∈ opcodeTable) (bytes : List Byte) :
    (∃ i, decode row.port bytes = .ok i) ↔ 8 * bytes.length = row.width := by
  rw [width_of_mem_opcodeTable hrow]
  constructor
  · rintro ⟨i, hi⟩
    rcases decode_eq_ok hi with ⟨b, hport, rfl, -⟩ | ⟨b, hport, rfl, -⟩ | ⟨b0, b1, b2, b3, hport, rfl, -⟩ <;>
      simp [hport]
  · intro hwidth
    cases hport : row.port with
    | mapIdx =>
      have hlength : bytes.length = 1 := by simpa [hport] using hwidth
      obtain ⟨b, rfl⟩ := List.length_eq_one_iff.1 hlength
      exact ⟨.map b, rfl⟩
    | packMask =>
      have hlength : 8 * bytes.length = 32 := by simpa [hport] using hwidth
      obtain ⟨b0, b1, b2, b3, rfl⟩ := List.length_eq_four.1 (by omega : bytes.length = 4)
      exact ⟨.pack (wordOfBytes b0 b1 b2 b3), rfl⟩
    | fillK =>
      have hlength : bytes.length = 1 := by simpa [hport] using hwidth
      obtain ⟨b, rfl⟩ := List.length_eq_one_iff.1 hlength
      exact ⟨.fill b, rfl⟩

/-- Settles O1: a one-byte operand is its own byte, and a mask is joined again from its four. -/
theorem decodeOfEncode : Obligations.DecodeOfEncode := by
  intro i
  cases i with
  | map idx => simp [encode, decode]
  | pack mask => simp [encode, decode, wordOfBytes_byteOfWord]
  | fill k => simp [encode, decode]

/-- Settles O2: in each form that decodes, the operand gives back the bytes it was made of. -/
theorem encodeOfDecode : Obligations.EncodeOfDecode := by
  intro port bytes i h
  rcases decode_eq_ok h with ⟨b, rfl, rfl, rfl⟩ | ⟨b, rfl, rfl, rfl⟩ | ⟨b0, b1, b2, b3, rfl, rfl, rfl⟩ <;>
    simp [encode]

/-- Settles O3: the width decides whether the bytes are an operation, and bytes that are none have the one error. -/
theorem decodeAcceptsExactlyPortWords : Obligations.DecodeAcceptsExactlyPortWords := by
  intro row hrow bytes
  have haccept := exists_decode_iff hrow bytes
  exact ⟨haccept.2, fun hwidth => decode_eq_error fun i hi => hwidth (haccept.1 ⟨i, hi⟩)⟩

/-- Settles O4: five fixed words, each evaluated by the decoder. -/
theorem sampleWordsDecode : Obligations.SampleWordsDecode :=
  ⟨rfl, rfl, rfl, rfl, rfl⟩

end Sys2Proof

/-! ## The range test, and the words that raise the error (`30_encoding.md` sections 2 and 4) -/

namespace Sys2Proof.Machine

/-- A number is below `2 ^ 5` exactly when it has no bit from 5 up (R73). -/
theorem inRange_iff_getLsbD {w : Nat} (word : BitVec w) :
    inRange word = true ↔ ∀ b, 5 ≤ b → word.getLsbD b = false := by
  rw [inRange_iff_toNat_lt]
  constructor
  · intro hlt b hb
    exact Nat.testBit_lt_two_pow (hlt.trans_le (Nat.pow_le_pow_right (n := 2) (by decide) hb))
  · exact Nat.lt_pow_two_of_testBit (n := 5) word.toNat

/-- From width 7 up a word below 32 has its sign bit clear, and a negative word is no word below 32. -/
theorem inRange_iff_toInt {w : Nat} (word : BitVec w) (hw : 7 ≤ w) :
    inRange word = true ↔ 0 ≤ word.toInt ∧ word.toInt ≤ 31 := by
  have hpow : 2 ^ 7 ≤ 2 ^ w := Nat.pow_le_pow_right (by decide) hw
  have hlt := word.isLt
  rw [inRange_iff_toNat_lt, BitVec.toInt_eq_toNat_cond]
  split <;> omega

/-- The five low bits of a word in range are its whole value. -/
theorem toNat_indexOf {w : Nat} {word : BitVec w} (h : inRange word = true) : (indexOf word).toNat = word.toNat := by
  rw [indexOf, BitVec.extractLsb'_toNat, Nat.shiftRight_zero]
  exact Nat.mod_eq_of_lt ((inRange_iff_toNat_lt word).1 h)

/-- Settles O7: the test asks for the bits from 5 up, and both readings of the word put its values without them at 0 to 31. -/
theorem rangeTestNeedsNoSignedness : Obligations.RangeTestNeedsNoSignedness := by
  intro w word hw
  exact ⟨inRange_iff_getLsbD word, (inRange_iff_toNat_lt word).trans Nat.lt_succ_iff, inRange_iff_toInt word hw,
    toNat_indexOf⟩

theorem mapWord_eq_error_iff {w : Nat} (word : BitVec w) : mapWord word = .indexOutOfRange ↔ inRange word = false := by
  cases h : inRange word <;> simp [mapWord, raiseIndexOutOfRange, h]

theorem fillWord_eq_error_iff {w : Nat} (word : BitVec w) : fillWord word = .indexOutOfRange ↔ inRange word = false := by
  cases h : inRange word <;> simp [fillWord, raiseIndexOutOfRange, h]

theorem inRange_eq_false_iff_getLsbD {w : Nat} (word : BitVec w) :
    inRange word = false ↔ ∃ b, 5 ≤ b ∧ word.getLsbD b = true := by
  rw [← Bool.not_eq_true, inRange_iff_getLsbD]
  simp

theorem inRange_eq_false_iff_le_toNat {w : Nat} (word : BitVec w) : inRange word = false ↔ 0x20 ≤ word.toNat := by
  rw [← Bool.not_eq_true, inRange_iff_toNat_lt, not_lt]

/-- Settles O5: the unit's result is the error exactly when the range test fails, in either reading of the test. -/
theorem illegalWordsRaise : Obligations.IllegalWordsRaise := by
  intro word s
  refine ⟨⟨_, execMap_eq word s, ?_, ?_⟩, ⟨_, execFill_eq word s, ?_, ?_⟩⟩
  · exact (mapWord_eq_error_iff word).trans (inRange_eq_false_iff_getLsbD word)
  · exact (mapWord_eq_error_iff word).trans (inRange_eq_false_iff_le_toNat word)
  · exact (fillWord_eq_error_iff word).trans (inRange_eq_false_iff_getLsbD word)
  · exact (fillWord_eq_error_iff word).trans (inRange_eq_false_iff_le_toNat word)

/-- The operation map's pattern for MAP and FILL is the range test (R79, R73). -/
theorem and_rowMask_beq_zero_eq_inRange (word : IdxWord) : (word &&& 0xE0#8 == 0x00#8) = inRange word := by
  revert word; decide

theorem coordReply_eq_error_iff (out : Result Coord) : coordReply out = .indexOutOfRange ↔ out = .indexOutOfRange := by
  cases out <;> simp [coordReply]

theorem maskReply_eq_error_iff (out : Result Mask) : maskReply out = .indexOutOfRange ↔ out = .indexOutOfRange := by
  cases out <;> simp [maskReply]

/-- An operation has a result exactly when its word fits its row: for MAP and FILL the word is in range, and PACK, whose row
fixes no bit, never fails. -/
theorem wellFormed_iff_resultOf (i : Instr) : i.wellFormed = true ↔ resultOf i ≠ .indexOutOfRange := by
  cases i with
  | map idx =>
    rw [Instr.wellFormed, and_rowMask_beq_zero_eq_inRange, resultOf, Ne, coordReply_eq_error_iff, mapWord_eq_error_iff,
      Bool.not_eq_false]
  | pack mask => simp [Instr.wellFormed, resultOf]
  | fill k =>
    rw [Instr.wellFormed, and_rowMask_beq_zero_eq_inRange, resultOf, Ne, maskReply_eq_error_iff, fillWord_eq_error_iff,
      Bool.not_eq_false]

/-- Settles O6: the reply is the operation's `resultOf`, whatever the state. -/
theorem wellFormedGivesResult : Obligations.WellFormedGivesResult := by
  intro i s
  obtain ⟨t, ht⟩ := exec_eq_next i s
  refine ⟨t, ht, ?_⟩
  rw [replyTo_of_exec ht]
  exact wellFormed_iff_resultOf i

end Sys2Proof.Machine

/-! ## The units' ports: independence and the error bits (`30_encoding.md` sections 1 and 2, `60_exceptions.md` section 2) -/

namespace Sys2Proof.Machine

section
variable (s : State) (idx k : IdxWord) (mask : Mask) (coord : Result Coord) (rows : Rows) (filled : Result Mask)

theorem drivePacker_driveMapper : (s.driveMapper idx coord).drivePacker mask rows =
    (s.drivePacker mask rows).driveMapper idx coord := rfl

theorem driveFiller_driveMapper : (s.driveMapper idx coord).driveFiller k filled =
    (s.driveFiller k filled).driveMapper idx coord := rfl

theorem driveFiller_drivePacker : (s.drivePacker mask rows).driveFiller k filled =
    (s.driveFiller k filled).drivePacker mask rows := rfl

end

/-- Evaluations on different ports end in one state in either order: the two units' ports are different fields. -/
theorem exec_comm : ∀ {i j : Instr} (s : State), (encode i).1 ≠ (encode j).1 →
    onNext (exec i s) (exec j) = onNext (exec j s) (exec i)
  | .map _, .pack _, s, _ => congrArg Host.Outcome.next (drivePacker_driveMapper s ..)
  | .map _, .fill _, s, _ => congrArg Host.Outcome.next (driveFiller_driveMapper s ..)
  | .pack _, .fill _, s, _ => congrArg Host.Outcome.next (driveFiller_drivePacker s ..)
  | .pack _, .map _, s, _ => congrArg Host.Outcome.next (drivePacker_driveMapper s ..).symm
  | .fill _, .map _, s, _ => congrArg Host.Outcome.next (driveFiller_driveMapper s ..).symm
  | .fill _, .pack _, s, _ => congrArg Host.Outcome.next (driveFiller_drivePacker s ..).symm
  | .map _, .map _, _, hports | .pack _, .pack _, _, hports | .fill _, .fill _, _, hports => absurd rfl hports

/-- Settles O27: the evaluations commute, and each unit's reply after both is the operation's `resultOf`, as after its own
evaluation. -/
theorem unitsAreIndependent : Obligations.UnitsAreIndependent := by
  intro i j s hports
  obtain ⟨t, ht⟩ := exec_eq_next i s
  obtain ⟨v, hv⟩ := exec_eq_next j s
  obtain ⟨u, hu⟩ := exec_eq_next j t
  have hcomm : exec j t = exec i v := by simpa [ht, hv] using exec_comm s hports
  have hu' : exec i v = .next u := hcomm.symm.trans hu
  exact ⟨t, u, v, ht, hu, hv, hu', (replyTo_of_exec hu').trans (replyTo_of_exec ht).symm,
    (replyTo_of_exec hu).trans (replyTo_of_exec hv).symm⟩

theorem errBit_eq_true_iff {α : Type} (out : Result α) : errBit out = true ↔ out = .indexOutOfRange := by
  cases out <;> simp [errBit]

/-- An error bit at 0 stands beside a value. -/
theorem exists_ok_of_errBit_eq_false {α : Type} {out : Result α} (h : errBit out = false) : ∃ value, out = .ok value := by
  cases out with
  | ok value => exact ⟨value, rfl⟩
  | indexOutOfRange => cases h

theorem mapRow_of_ok {s : State} {c : Coord} (h : s.mapper.out = .ok c) : s.mapRow = c.row := by
  simp [State.mapRow, h]

theorem mapCol_of_ok {s : State} {c : Coord} (h : s.mapper.out = .ok c) : s.mapCol = c.col := by
  simp [State.mapCol, h]

theorem fillMaskPin_of_ok {s : State} {m : Mask} (h : s.filler.out = .ok m) : s.fillMaskPin = m := by
  simp [State.fillMaskPin, h]

/-- Settles O29: an error bit tells an error from a value, and the data pins carry the value. -/
theorem errorBitSaysWhatOutputsHold : Obligations.ErrorBitSaysWhatOutputsHold := by
  intro s
  refine ⟨errBit_eq_true_iff s.mapper.out, fun hmap => ?_, errBit_eq_true_iff s.filler.out, fun hfill => ?_⟩
  · obtain ⟨c, hc⟩ := exists_ok_of_errBit_eq_false hmap
    rw [hc, mapRow_of_ok hc, mapCol_of_ok hc]
  · obtain ⟨m, hm⟩ := exists_ok_of_errBit_eq_false hfill
    rw [hm, fillMaskPin_of_ok hm]

end Sys2Proof.Machine

/-! ## A table word put where the step fetches (`30_encoding.md` section 4) -/

namespace Sys2Proof.Machine

theorem decode_of_decodeTableWord {nbits w : Nat} {i : Instr} (h : decodeTableWord nbits w = some i) :
    decode (tablePort nbits) (tableBytes nbits w) = .ok i := by
  unfold decodeTableWord at h
  split at h
  · next hok => cases h; exact hok
  · cases h

/-- A caller with one more request, before all its others. -/
def Caller.askFirst (r : Request) (caller : Caller) : Caller := { caller with pending := r :: caller.pending }

@[simp] theorem Caller.askFirst_pending (r : Request) (caller : Caller) :
    (caller.askFirst r).pending = r :: caller.pending := rfl

/-- One more request of a caller that is ready already leaves the same callers ready. -/
theorem readyFrom_modify_askFirst {callers : List Caller} {c : Nat} {caller : Caller} (r : Request) (n : Nat)
    (hcaller : callers[c]? = some caller) (hpending : caller.pending ≠ []) :
    readyFrom n (callers.modify c (Caller.askFirst r)) = readyFrom n callers := by
  induction callers generalizing n c with
  | nil => simp at hcaller
  | cons head rest ih =>
    cases c with
    | zero =>
      have hhead : head = caller := by simpa using hcaller
      simp [readyFrom, hhead, hpending]
    | succ c =>
      have hrest : rest[c]? = some caller := by simpa using hcaller
      simp [readyFrom, ih (n + 1) hrest]

/-- Who moves is settled by who is ready, and by the schedule and the turn where several are. -/
theorem chosen_congr {s t : State} (hready : t.ready = s.ready) (hschedule : t.schedule = s.schedule)
    (hturn : t.turn = s.turn) : t.chosen = s.chosen := by
  simp only [State.chosen, State.draw, hready, hschedule, hturn]

theorem chosen_of_ready_singleton {s : State} {c : Nat} (h : s.ready = [c]) : s.chosen = some c := by
  simp [State.chosen, h]

theorem fetch_of_chosen {s : State} {c : Nat} {caller : Caller} {r : Request} {rest : List Request}
    (hchosen : s.chosen = some c) (hcaller : s.callers[c]? = some caller) (hpending : caller.pending = r :: rest) :
    s.fetch = some (c, r) := by
  simp [State.fetch, hchosen, hcaller, hpending]

theorem putFirst_of_chosen {s : State} {c : Nat} (r : Request) (h : s.chosen = some c) :
    s.putFirst r = s.updateCaller c (Caller.askFirst r) := by
  simp only [State.putFirst, h]
  rfl

theorem putFirst_of_no_caller {s : State} (r : Request) (hchosen : s.chosen = none) (hcallers : s.callers = []) :
    (s.putFirst r).callers = [{ pending := [r], reply := none }] := by
  simp [State.putFirst, hchosen, hcallers]

theorem putFirst_of_idle_callers {s : State} {head : Caller} {rest : List Caller} (r : Request)
    (hchosen : s.chosen = none) (hcallers : s.callers = head :: rest) :
    s.putFirst r = s.updateCaller 0 (Caller.askFirst r) := by
  simp only [State.putFirst, hchosen, hcallers]
  rfl

/-- With nobody ready, giving the first caller a request makes it the only one ready. -/
theorem ready_askFirst_of_idle {s : State} {head : Caller} {rest : List Caller} (r : Request) (hready : s.ready = [])
    (hcallers : s.callers = head :: rest) : (s.updateCaller 0 (Caller.askFirst r)).ready = [0] := by
  have hrest : readyFrom 1 rest = [] := by
    rw [State.ready, hcallers, readyFrom] at hready
    split at hready
    · exact hready
    · cases hready
  simp [State.ready, hcallers, readyFrom, hrest]

/-- A request put first is the one fetched: the caller it is given to is the one that would have moved anyway, or, with nobody
ready, the only one that can. -/
theorem fetch_putFirst (s : State) (r : Request) : ∃ c, (s.putFirst r).fetch = some (c, r) := by
  cases hchosen : s.chosen with
  | some c =>
    obtain ⟨caller, hcaller, hpending⟩ := (mem_ready s c).1 (mem_ready_of_chosen hchosen)
    have hready : (s.updateCaller c (Caller.askFirst r)).ready = s.ready :=
      readyFrom_modify_askFirst r 0 hcaller hpending
    have hsame := (chosen_congr hready rfl rfl).trans hchosen
    rw [putFirst_of_chosen r hchosen]
    exact ⟨c, fetch_of_chosen hsame (by simp [hcaller]) (Caller.askFirst_pending r caller)⟩
  | none =>
    cases hcallers : s.callers with
    | nil => exact ⟨0, fetch_single (putFirst_of_no_caller r hchosen hcallers)⟩
    | cons head rest =>
      have hready : s.ready = [] := (chosen_eq_none_iff s).1 hchosen
      have hfirst := chosen_of_ready_singleton (ready_askFirst_of_idle r hready hcallers)
      rw [putFirst_of_idle_callers r hchosen hcallers]
      exact ⟨0, fetch_of_chosen hfirst (by simp [hcallers]) (Caller.askFirst_pending r head)⟩

/-- Settles O38: the table word is the request fetched, and a fetched word that decodes is run (O37). -/
theorem fetchWordIsNext : Obligations.FetchWordIsNext := by
  intro s nbits w i h
  obtain ⟨c, hfetch⟩ := fetch_putFirst s (tableRequest nbits w)
  obtain ⟨hrun, -⟩ := stepRunsDecodedWord (s.withFetchWord nbits w) c _ _ hfetch
  obtain ⟨t, ht, hstep⟩ := hrun i (decode_of_decodeTableWord h)
  exact ⟨c, t, hfetch, ht, hstep⟩

end Sys2Proof.Machine

/-! ## MAP and its inverse UNMAP (`40_mapper.md`) -/

namespace Sys2Proof.Machine

theorem mapWord_of_inRange {w : Nat} {word : BitVec w} (h : inRange word = true) :
    mapWord word = .ok (mapCoord (indexOf word)) :=
  if_pos h

/-- MAP answers a coordinate exactly when the range test passes, and then the one of the word's index. -/
theorem mapWord_eq_ok_iff {w : Nat} (word : BitVec w) (c : Coord) :
    mapWord word = .ok c ↔ inRange word = true ∧ mapCoord (indexOf word) = c := by
  cases h : inRange word <;> simp [mapWord, raiseIndexOutOfRange, h]

/-- The first half of the ring runs through the rows in order, in columns 0 to 3 (R101). -/
theorem mapCoord_of_le {i : BitVec 5} (h : i.toNat ≤ 15) :
    mapCoord i = { row := BitVec.ofNat 2 (i.toNat / 4), col := BitVec.ofNat 3 (i.toNat % 4) } :=
  if_pos h

/-- The second half comes back through the rows in reverse, in columns 4 to 7 (R102). -/
theorem mapCoord_of_ge {i : BitVec 5} (h : 16 ≤ i.toNat) :
    mapCoord i = { row := BitVec.ofNat 2 (3 - (i.toNat - 16) / 4), col := BitVec.ofNat 3 (4 + i.toNat % 4) } :=
  if_neg (by omega)

theorem toNat_mapCoord_of_le {i : BitVec 5} (h : i.toNat ≤ 15) :
    (mapCoord i).row.toNat = i.toNat / 4 ∧ (mapCoord i).col.toNat = i.toNat % 4 := by
  rw [mapCoord_of_le h, BitVec.toNat_ofNat, BitVec.toNat_ofNat]
  omega

theorem toNat_mapCoord_of_ge {i : BitVec 5} (h : 16 ≤ i.toNat) :
    (mapCoord i).row.toNat = 3 - (i.toNat - 16) / 4 ∧ (mapCoord i).col.toNat = 4 + i.toNat % 4 := by
  rw [mapCoord_of_ge h, BitVec.toNat_ofNat, BitVec.toNat_ofNat]
  omega

/-- A word in range is the word that holds its own index. -/
theorem setWidth_indexOf {word : IdxWord} (h : inRange word = true) : (indexOf word).setWidth 8 = word := by
  apply BitVec.eq_of_toNat_eq
  rw [BitVec.toNat_setWidth, toNat_indexOf h]
  omega

theorem getLsbD_indexOf {w : Nat} (word : BitVec w) {b : Nat} (hb : b < 5) :
    (indexOf word).getLsbD b = word.getLsbD b := by
  simp [indexOf, hb]

theorem toNat_unmap_of_col_le {c : Coord} (h : c.col.toNat ≤ 3) : (unmap c).toNat = 4 * c.row.toNat + c.col.toNat := by
  rw [unmap, if_pos h, BitVec.toNat_ofNat]
  omega

theorem toNat_unmap_of_col_ge {c : Coord} (h : 4 ≤ c.col.toNat) :
    (unmap c).toNat = 16 + 4 * (3 - c.row.toNat) + (c.col.toNat - 4) := by
  rw [unmap, if_neg (by omega), BitVec.toNat_ofNat]
  omega

/-- UNMAP puts columns 0 to 3 in the first half of the ring and the others in the second, where MAP's formula for that half
gives the row and the column back. -/
theorem mapCoord_unmap (c : Coord) : mapCoord (unmap c) = c := by
  rcases Nat.lt_or_ge c.col.toNat 4 with hcol | hcol
  · have hindex := toNat_unmap_of_col_le (Nat.le_of_lt_succ hcol)
    have hrow : (unmap c).toNat / 4 = c.row.toNat := by omega
    have hmod : (unmap c).toNat % 4 = c.col.toNat := by omega
    rw [mapCoord_of_le (by omega), hrow, hmod, BitVec.ofNat_toNat, BitVec.ofNat_toNat, BitVec.setWidth_eq,
      BitVec.setWidth_eq]
  · have hindex := toNat_unmap_of_col_ge hcol
    have hrow : 3 - ((unmap c).toNat - 16) / 4 = c.row.toNat := by omega
    have hmod : 4 + (unmap c).toNat % 4 = c.col.toNat := by omega
    rw [mapCoord_of_ge (by omega), hrow, hmod, BitVec.ofNat_toNat, BitVec.ofNat_toNat, BitVec.setWidth_eq,
      BitVec.setWidth_eq]

/-- MAP puts each half of the ring in columns of its own, so UNMAP's test of the column finds the half again. -/
theorem unmap_mapCoord (i : BitVec 5) : unmap (mapCoord i) = i := by
  apply BitVec.eq_of_toNat_eq
  rcases Nat.lt_or_ge i.toNat 16 with hi | hi
  · obtain ⟨hrow, hcol⟩ := toNat_mapCoord_of_le (Nat.le_of_lt_succ hi)
    rw [toNat_unmap_of_col_le (by omega), hrow, hcol]
    omega
  · obtain ⟨hrow, hcol⟩ := toNat_mapCoord_of_ge hi
    rw [toNat_unmap_of_col_ge (by omega), hrow, hcol]
    omega

/-- UNMAP is the inverse of MAP on the words themselves: one word gives a coordinate, the one that holds its index. -/
theorem mapWord_eq_ok_iff_eq_unmap (word : IdxWord) (c : Coord) :
    mapWord word = .ok c ↔ word = (unmap c).setWidth 8 := by
  constructor
  · intro h
    obtain ⟨hin, rfl⟩ := (mapWord_eq_ok_iff word c).1 h
    rw [unmap_mapCoord, setWidth_indexOf hin]
  · rintro rfl
    rw [mapWord_setWidth, mapCoord_unmap]

/-- What MAP leaves on the MAPPER's outputs, from any state, is the result of its word. -/
theorem exists_exec_map_out_iff (idx : IdxWord) (s : State) (c : Coord) :
    (∃ t, exec (.map idx) s = .next t ∧ t.mapper.out = .ok c) ↔ mapWord idx = .ok c := by
  constructor
  · rintro ⟨t, ht, hout⟩
    cases ht
    exact hout
  · exact fun h => ⟨_, execMap_eq idx s, h⟩

/-- Settles O13: a word in range has its index's coordinate, and the one word of a coordinate is UNMAP's. -/
theorem mapIsBijection : Obligations.MapIsBijection := by
  intro s
  refine ⟨fun idx hidx => ?_, fun c => ?_⟩
  · have hin : inRange idx = true := (inRange_iff_toNat_lt idx).2 (Nat.lt_succ_of_le hidx)
    exact ⟨_, _, execMap_eq idx s, mapWord_of_inRange hin⟩
  · simp only [exists_exec_map_out_iff, mapWord_eq_ok_iff_eq_unmap]
    exact existsUnique_eq

/-- MAP of a word in range, from every state: the coordinate of its index, and only the MAPPER's ports change. -/
theorem exec_map_of_inRange {idx : IdxWord} (s : State) (h : inRange idx = true) :
    exec (.map idx) s = .next (s.driveMapper idx (.ok (mapCoord (indexOf idx)))) :=
  (execMap_eq idx s).trans (by rw [mapWord_of_inRange h])

/-- Settles O9: the index is the word's value, and the first half's formula gives its coordinate. -/
theorem mapFirstHalf : Obligations.MapFirstHalf := by
  intro idx s hidx
  have hin : inRange idx = true := (inRange_iff_toNat_lt idx).2 (by omega)
  have hindex := toNat_indexOf hin
  rw [exec_map_of_inRange s hin, mapCoord_of_le (hindex.trans_le hidx), hindex]
  rfl

/-- Settles O10: as for the first half, by the second half's formula. -/
theorem mapSecondHalf : Obligations.MapSecondHalf := by
  intro idx s hlow hhigh
  have hin : inRange idx = true := (inRange_iff_toNat_lt idx).2 (Nat.lt_succ_of_le hhigh)
  have hindex := toNat_indexOf hin
  rw [exec_map_of_inRange s hin, mapCoord_of_ge (hlow.trans_eq hindex.symm), hindex]
  rfl

/-- Settles O11: the result that stands on the outputs is the error, which is what `map_err` says. -/
theorem mapRejectsOutOfRange : Obligations.MapRejectsOutOfRange := by
  intro idx s hidx
  refine ⟨_, execMap_eq idx s, ?_, (errBit_eq_true_iff _).2 (mapWord_of_ge hidx)⟩
  rw [mapWord_of_ge hidx]
  rfl

theorem getLsbD_eq_decide_toNat {w : Nat} (x : BitVec w) (b : Nat) :
    x.getLsbD b = decide (x.toNat / 2 ^ b % 2 = 1) :=
  Nat.testBit_eq_decide_div_mod_eq

theorem decide_xor_decide (p q : Prop) [Decidable p] [Decidable q] :
    (decide p ^^ decide q) = decide (¬(p ↔ q)) := by
  by_cases hp : p <;> by_cases hq : q <;> simp [hp, hq]

/-- The coordinate's bits as R106 wires them: `i4` says which half, and in the second it turns the row's bits over. -/
theorem mapCoord_bits (i : BitVec 5) :
    ((mapCoord i).col.getLsbD 2 = i.getLsbD 4 ∧ (mapCoord i).col.getLsbD 1 = i.getLsbD 1 ∧
      (mapCoord i).col.getLsbD 0 = i.getLsbD 0) ∧
    (mapCoord i).row.getLsbD 1 = (i.getLsbD 3 ^^ i.getLsbD 4) ∧
    (mapCoord i).row.getLsbD 0 = (i.getLsbD 2 ^^ i.getLsbD 4) := by
  simp only [getLsbD_eq_decide_toNat, decide_xor_decide, decide_eq_decide]
  rcases Nat.lt_or_ge i.toNat 16 with hi | hi
  · obtain ⟨hrow, hcol⟩ := toNat_mapCoord_of_le (Nat.le_of_lt_succ hi)
    omega
  · obtain ⟨hrow, hcol⟩ := toNat_mapCoord_of_ge hi
    omega

/-- The range test at 8 bits is the OR of the three bits from 5 up. -/
theorem not_inRange_eq_or (word : IdxWord) :
    (!inRange word) = (word.getLsbD 7 || word.getLsbD 6 || word.getLsbD 5) := by
  rw [Bool.eq_iff_iff, Bool.not_eq_true', inRange_eq_false_iff_getLsbD, Bool.or_eq_true, Bool.or_eq_true]
  constructor
  · rintro ⟨b, hb, hbit⟩
    have hlt : b < 8 := BitVec.lt_of_getLsbD hbit
    interval_cases b <;> simp [hbit]
  · rintro ((hbit | hbit) | hbit)
    · exact ⟨7, by decide, hbit⟩
    · exact ⟨6, by decide, hbit⟩
    · exact ⟨5, by decide, hbit⟩

theorem errBit_mapWord {w : Nat} (word : BitVec w) : errBit (mapWord word) = !inRange word := by
  cases h : inRange word <;> simp [mapWord, raiseIndexOutOfRange, errBit, h]

/-- Settles O12: `map_err` is the failed range test; without it the pins carry the coordinate, whose bits are wired from the
index's. -/
theorem mapIsWiresAndTwoXors : Obligations.MapIsWiresAndTwoXors := by
  intro idx s
  refine ⟨_, execMap_eq idx s, (errBit_mapWord idx).trans (not_inRange_eq_or idx), fun herr => ?_⟩
  obtain ⟨c, hout⟩ := exists_ok_of_errBit_eq_false herr
  obtain ⟨-, rfl⟩ := (mapWord_eq_ok_iff idx c).1 hout
  obtain ⟨⟨hcol2, hcol1, hcol0⟩, hrow1, hrow0⟩ := mapCoord_bits (indexOf idx)
  simp only [mapRow_of_ok hout, mapCol_of_ok hout, hcol2, hcol1, hcol0, hrow1, hrow0, getLsbD_indexOf idx, Nat.reduceLT,
    and_self]

/-- Settles O14: UNMAP's formula in each column range, and the two inverse laws. -/
theorem unmapInvertsMap : Obligations.UnmapInvertsMap :=
  ⟨fun c => ⟨toNat_unmap_of_col_le, toNat_unmap_of_col_ge, mapCoord_unmap c⟩, unmap_mapCoord⟩

end Sys2Proof.Machine

/-! ## PACK and its inverse UNPACK (`41_packer.md`) -/

namespace Sys2Proof.Machine

section
variable (x : Byte) {b : Nat}

/-! Each nibble operation, bit by bit. -/

theorem getLsbD_lowNibble (hb : b < 8) : (lowNibble x).getLsbD b = (x.getLsbD b && decide (b < 4)) := by
  have hmask : ∀ b < 8, (0x0F#8).getLsbD b = decide (b < 4) := by decide
  rw [lowNibble, BitVec.getLsbD_and, hmask b hb]

theorem getLsbD_highNibble (hb : b < 8) : (highNibble x).getLsbD b = (x.getLsbD b && decide (4 ≤ b)) := by
  have hmask : ∀ b < 8, (0xF0#8).getLsbD b = decide (4 ≤ b) := by decide
  rw [highNibble, BitVec.getLsbD_and, hmask b hb]

theorem getLsbD_highToLow : (highToLow x).getLsbD b = x.getLsbD (4 + b) :=
  BitVec.getLsbD_ushiftRight x 4 b

theorem getLsbD_lowToHigh (hb : b < 8) : (lowToHigh x).getLsbD b = (x.getLsbD (b - 4) && decide (4 ≤ b)) := by
  rw [lowToHigh_eq, ← highNibble, getLsbD_highNibble _ hb, BitVec.getLsbD_shiftLeft]
  rcases Nat.lt_or_ge b 4 with hlow | hhigh
  · simp [hlow]
  · simp [hb, hhigh]

end

section
variable (x y : Byte) {b : Nat}

/-- Rows 0 and 2 keep the nibbles of their two bytes in place (R122, R124). -/
theorem getLsbD_keptNibbles (hb : b < 8) :
    (lowNibble x ||| highNibble y).getLsbD b = if b < 4 then x.getLsbD b else y.getLsbD b := by
  rw [BitVec.getLsbD_or, getLsbD_lowNibble x hb, getLsbD_highNibble y hb]
  split
  case isTrue hlow => simp [hlow]
  case isFalse hhigh => simp [hhigh, Nat.le_of_not_lt hhigh]

/-- Rows 1 and 3 exchange the nibbles of their two bytes (R123, R125). -/
theorem getLsbD_crossedNibbles (hb : b < 8) :
    (highToLow x ||| lowToHigh y).getLsbD b = if b < 4 then x.getLsbD (4 + b) else y.getLsbD (b - 4) := by
  rw [BitVec.getLsbD_or, getLsbD_highToLow, getLsbD_lowToHigh y hb]
  split
  case isTrue hlow => simp [hlow]
  case isFalse hhigh =>
    have hbeyond : x.getLsbD (4 + b) = false := BitVec.getLsbD_of_ge _ _ (by omega)
    simp [hbeyond, Nat.le_of_not_lt hhigh]

/-- The lower byte that UNPACK reads from a pair of rows (R132). -/
theorem getLsbD_unpackedLower (hb : b < 8) :
    (lowNibble x ||| lowToHigh y).getLsbD b = if b < 4 then x.getLsbD b else y.getLsbD (b - 4) := by
  rw [BitVec.getLsbD_or, getLsbD_lowNibble x hb, getLsbD_lowToHigh y hb]
  split
  case isTrue hlow => simp [hlow]
  case isFalse hhigh => simp [hhigh, Nat.le_of_not_lt hhigh]

/-- The upper byte that UNPACK reads from a pair of rows (R132). -/
theorem getLsbD_unpackedUpper (hb : b < 8) :
    (highNibble x ||| highToLow y).getLsbD b = if b < 4 then y.getLsbD (4 + b) else x.getLsbD b := by
  rw [BitVec.getLsbD_or, getLsbD_highNibble x hb, getLsbD_highToLow]
  split
  case isTrue hlow => simp [hlow]
  case isFalse hhigh =>
    have hbeyond : y.getLsbD (4 + b) = false := BitVec.getLsbD_of_ge _ _ (by omega)
    simp [hbeyond, Nat.le_of_not_lt hhigh]

/-! Two bytes packed into a pair of rows are read back, and two rows unpacked into a pair of bytes are packed again. -/

theorem unpackedLower_of_packed :
    lowNibble (lowNibble x ||| highNibble y) ||| lowToHigh (highToLow x ||| lowToHigh y) = x := by
  refine BitVec.eq_of_getLsbD_eq fun b hb => ?_
  rw [getLsbD_unpackedLower _ _ hb]
  split
  · rw [getLsbD_keptNibbles x y hb, if_pos ‹_›]
  · rw [getLsbD_crossedNibbles x y (by omega), if_pos (by omega), show 4 + (b - 4) = b by omega]

theorem unpackedUpper_of_packed :
    highNibble (lowNibble x ||| highNibble y) ||| highToLow (highToLow x ||| lowToHigh y) = y := by
  refine BitVec.eq_of_getLsbD_eq fun b hb => ?_
  rw [getLsbD_unpackedUpper _ _ hb]
  split
  · rw [getLsbD_crossedNibbles x y (by omega), if_neg (by omega), Nat.add_sub_cancel_left]
  · rw [getLsbD_keptNibbles x y hb, if_neg ‹_›]

theorem keptNibbles_of_unpacked :
    lowNibble (lowNibble x ||| lowToHigh y) ||| highNibble (highNibble x ||| highToLow y) = x := by
  refine BitVec.eq_of_getLsbD_eq fun b hb => ?_
  rw [getLsbD_keptNibbles _ _ hb]
  split
  · rw [getLsbD_unpackedLower x y hb, if_pos ‹_›]
  · rw [getLsbD_unpackedUpper x y hb, if_neg ‹_›]

theorem crossedNibbles_of_unpacked :
    highToLow (lowNibble x ||| lowToHigh y) ||| lowToHigh (highNibble x ||| highToLow y) = y := by
  refine BitVec.eq_of_getLsbD_eq fun b hb => ?_
  rw [getLsbD_crossedNibbles _ _ hb]
  split
  · rw [getLsbD_unpackedLower x y (by omega), if_neg (by omega), Nat.add_sub_cancel_left]
  · rw [getLsbD_unpackedUpper x y (by omega), if_pos (by omega), show 4 + (b - 4) = b by omega]

end

/-- The shift of a nibble that is masked first, as UNPACK's formulas write it (R132). -/
theorem lowToHigh_eq_shiftLeft_lowNibble (x : Byte) : lowToHigh x = (x &&& 0x0F#8) <<< 4 := by
  rw [lowToHigh_eq, BitVec.shiftLeft_and_distrib]
  rfl

theorem unpackRows_packRows (mask : Mask) : unpackRows (packRows mask) = mask := by
  simp only [unpackRows, packRows, unpackedLower_of_packed, unpackedUpper_of_packed]
  exact wordOfBytes_byteOfWord mask

theorem packRows_unpackRows (rows : Rows) : packRows (unpackRows rows) = rows := by
  simp only [packRows, unpackRows, maskByte, byteOfWord_wordOfBytes_zero, byteOfWord_wordOfBytes_one,
    byteOfWord_wordOfBytes_two, byteOfWord_wordOfBytes_three, keptNibbles_of_unpacked, crossedNibbles_of_unpacked]

/-- Settles O17: the formulas are the definition's own; each pair of bytes is packed into a pair of rows and read back. -/
theorem unpackInvertsPack : Obligations.UnpackInvertsPack := by
  refine ⟨?_, unpackRows_packRows, packRows_unpackRows⟩
  rintro rows b0 b1 b2 b3 rfl rfl rfl rfl
  simp only [← lowToHigh_eq_shiftLeft_lowNibble]
  rfl

/-- Settles O15: the model's nibble operations, written out. -/
theorem packFormulas : Obligations.PackFormulas := by
  rintro mask s b0 b1 b2 b3 rfl rfl rfl rfl
  simp only [← lowToHigh_eq]
  exact execPack_eq mask s

theorem getLsbD_maskByte (mask : Mask) (n : Nat) {b : Nat} (hb : b < 8) :
    (maskByte mask n).getLsbD b = mask.getLsbD (8 * n + b) := by
  simp [maskByte, byteOfWord, hb]

/-- The low nibble of row `r` is `mask[4r+3 : 4r]` (R130). -/
theorem getLsbD_rowOf_packRows_low (mask : Mask) (r : BitVec 2) {k : Nat} (hk : k < 4) :
    (rowOf (packRows mask) r).getLsbD k = mask.getLsbD (4 * r.toNat + k) := by
  have hkept (m n : Nat) : (lowNibble (maskByte mask m) ||| highNibble (maskByte mask n)).getLsbD k =
      mask.getLsbD (8 * m + k) := by
    rw [getLsbD_keptNibbles _ _ (by omega), if_pos hk, getLsbD_maskByte _ _ (by omega)]
  have hcrossed (m n : Nat) : (highToLow (maskByte mask m) ||| lowToHigh (maskByte mask n)).getLsbD k =
      mask.getLsbD (8 * m + 4 + k) := by
    rw [getLsbD_crossedNibbles _ _ (by omega), if_pos hk, getLsbD_maskByte _ _ (by omega), Nat.add_assoc]
  match r with
  | 0#2 => exact hkept 0 3
  | 1#2 => exact hcrossed 0 3
  | 2#2 => exact hkept 1 2
  | 3#2 => exact hcrossed 1 2

/-- The high nibble of row `r` is `mask[31-4r : 28-4r]` (R130). -/
theorem getLsbD_rowOf_packRows_high (mask : Mask) (r : BitVec 2) {k : Nat} (hk : k < 4) :
    (rowOf (packRows mask) r).getLsbD (4 + k) = mask.getLsbD (28 - 4 * r.toNat + k) := by
  have hkept (m n : Nat) : (lowNibble (maskByte mask m) ||| highNibble (maskByte mask n)).getLsbD (4 + k) =
      mask.getLsbD (8 * n + 4 + k) := by
    rw [getLsbD_keptNibbles _ _ (by omega), if_neg (by omega), getLsbD_maskByte _ _ (by omega), Nat.add_assoc]
  have hcrossed (m n : Nat) : (highToLow (maskByte mask m) ||| lowToHigh (maskByte mask n)).getLsbD (4 + k) =
      mask.getLsbD (8 * n + k) := by
    rw [getLsbD_crossedNibbles _ _ (by omega), if_neg (by omega), Nat.add_sub_cancel_left,
      getLsbD_maskByte _ _ (by omega)]
  match r with
  | 0#2 => exact hkept 0 3
  | 1#2 => exact hcrossed 0 3
  | 2#2 => exact hkept 1 2
  | 3#2 => exact hcrossed 1 2

/-- Settles O16: the wiring of each nibble, read on the PACKER's outputs. -/
theorem packIsFixedWiring : Obligations.PackIsFixedWiring :=
  fun mask s => ⟨_, execPack_eq mask s, fun r _ hk =>
    ⟨getLsbD_rowOf_packRows_high mask r hk, getLsbD_rowOf_packRows_low mask r hk⟩⟩

/-- The row bit at the place of lamp `i` is the lamp's bit of the mask (R129): the first half of the ring lies in high
nibbles, the second in low ones. -/
theorem getLsbD_rowOf_packRows_mapCoord (mask : Mask) (i : BitVec 5) :
    (rowOf (packRows mask) (mapCoord i).row).getLsbD (7 - (mapCoord i).col.toNat) = mask.getLsbD (31 - i.toNat) := by
  have hk : 3 - i.toNat % 4 < 4 := by omega
  rcases Nat.lt_or_ge i.toNat 16 with hi | hi
  · obtain ⟨hrow, hcol⟩ := toNat_mapCoord_of_le (Nat.le_of_lt_succ hi)
    have hbit : 7 - (mapCoord i).col.toNat = 4 + (3 - i.toNat % 4) := by omega
    rw [hbit, getLsbD_rowOf_packRows_high mask _ hk, hrow]
    congr 1
    omega
  · obtain ⟨hrow, hcol⟩ := toNat_mapCoord_of_ge hi
    have hbit : 7 - (mapCoord i).col.toNat = 3 - i.toNat % 4 := by omega
    rw [hbit, getLsbD_rowOf_packRows_low mask _ hk, hrow]
    congr 1
    omega

/-- Settles O19: MAP leaves the PACKER's outputs alone, so they still hold PACK of the mask. -/
theorem packAgreesWithMap : Obligations.PackAgreesWithMap :=
  fun mask i s => ⟨_, _, _, execPack_eq mask s, execMap_eq _ _, mapWord_setWidth i,
    getLsbD_rowOf_packRows_mapCoord mask i⟩

/-- Every row bit is the place of a lamp: the one that UNMAP names (R107). -/
theorem exists_lamp_at_rowBit (r : BitVec 2) {b : Nat} (hb : b < 8) :
    ∃ i, (mapCoord i).row = r ∧ 7 - (mapCoord i).col.toNat = b := by
  refine ⟨unmap { row := r, col := BitVec.ofNat 3 (7 - b) }, ?_⟩
  rw [mapCoord_unmap, BitVec.toNat_ofNat]
  exact ⟨rfl, by omega⟩

/-- Row bytes are equal when they agree at the places of all lamps. -/
theorem rowByte_eq_of_lamps (r : BitVec 2) {v w : Byte}
    (h : ∀ i, (mapCoord i).row = r → v.getLsbD (7 - (mapCoord i).col.toNat) = w.getLsbD (7 - (mapCoord i).col.toNat)) :
    v = w := by
  refine BitVec.eq_of_getLsbD_eq fun b hb => ?_
  obtain ⟨i, hrow, rfl⟩ := exists_lamp_at_rowBit r hb
  exact h i hrow

/-- A bit of an OR of words is set exactly when it is set in one of them. -/
theorem getLsbD_foldl_or {w : Nat} (words : List (BitVec w)) (start : BitVec w) (b : Nat) :
    (words.foldl (· ||| ·) start).getLsbD b = true ↔
      start.getLsbD b = true ∨ ∃ word ∈ words, word.getLsbD b = true := by
  induction words generalizing start with
  | nil => simp
  | cons head tail ih => simp [ih, or_assoc]

/-- The one set bit of PACK of a lamp's bit, at the place of a lamp (R133). -/
theorem getLsbD_rowOf_packRows_bitOf (i j : BitVec 5) :
    (rowOf (packRows (bitOf i)) (mapCoord j).row).getLsbD (7 - (mapCoord j).col.toNat) = true ↔ j = i := by
  rw [getLsbD_rowOf_packRows_mapCoord, getLsbD_bitOf, ← BitVec.toNat_inj]
  omega

/-- PACK distributes over the bitwise operations, because each row bit is one bit of the mask (R133). -/
theorem rowOf_packRows_bitwise (a b : Mask) (r : BitVec 2) :
    rowOf (packRows (a ||| b)) r = rowOf (packRows a) r ||| rowOf (packRows b) r ∧
    rowOf (packRows (a &&& b)) r = rowOf (packRows a) r &&& rowOf (packRows b) r ∧
    rowOf (packRows (a ^^^ b)) r = rowOf (packRows a) r ^^^ rowOf (packRows b) r ∧
    rowOf (packRows (~~~a)) r = ~~~(rowOf (packRows a) r) := by
  refine ⟨rowByte_eq_of_lamps r ?_, rowByte_eq_of_lamps r ?_, rowByte_eq_of_lamps r ?_, rowByte_eq_of_lamps r ?_⟩ <;>
    rintro i rfl
  · simp only [getLsbD_rowOf_packRows_mapCoord, BitVec.getLsbD_or]
  · simp only [getLsbD_rowOf_packRows_mapCoord, BitVec.getLsbD_and]
  · simp only [getLsbD_rowOf_packRows_mapCoord, BitVec.getLsbD_xor]
  · have hbit : 31 - i.toNat < 32 := by omega
    have hcol : 7 - (mapCoord i).col.toNat < 8 := by omega
    simp only [getLsbD_rowOf_packRows_mapCoord, BitVec.getLsbD_not, hbit, hcol]

/-- A row of a mask is the OR of that row of the mask's single set bits (R133). -/
theorem rowOf_packRows_eq_or_of_bits (mask : Mask) (r : BitVec 2) : rowOf (packRows mask) r =
    ((List.range 32).map fun n =>
      if mask.getLsbD (31 - n) then rowOf (packRows (bitOf (BitVec.ofNat 5 n))) r else 0x00#8).foldl (· ||| ·) 0x00#8 := by
  refine rowByte_eq_of_lamps r ?_
  rintro i rfl
  rw [getLsbD_rowOf_packRows_mapCoord, Bool.eq_iff_iff, getLsbD_foldl_or]
  constructor
  · intro hset
    refine Or.inr ⟨_, List.mem_map.2 ⟨i.toNat, List.mem_range.2 i.isLt, rfl⟩, ?_⟩
    rw [if_pos hset, BitVec.ofNat_toNat, BitVec.setWidth_eq, getLsbD_rowOf_packRows_bitOf]
  · rintro (hzero | ⟨_, hmem, hset⟩)
    · simp at hzero
    · obtain ⟨n, hn, rfl⟩ := List.mem_map.1 hmem
      split at hset
      case isTrue hlit =>
        obtain rfl := (getLsbD_rowOf_packRows_bitOf _ i).1 hset
        rwa [BitVec.toNat_ofNat, Nat.mod_eq_of_lt (List.mem_range.1 hn)]
      case isFalse => simp at hset

/-- Settles O18: each row bit is one bit of the mask, at the place of one lamp. -/
theorem packIsLinear : Obligations.PackIsLinear := by
  refine ⟨rowOf_packRows_bitwise, rowOf_packRows_eq_or_of_bits, fun i r b => ⟨fun hset => ?_, ?_⟩⟩
  · obtain ⟨j, rfl, rfl⟩ := exists_lamp_at_rowBit r (BitVec.lt_of_getLsbD hset)
    obtain rfl := (getLsbD_rowOf_packRows_bitOf i j).1 hset
    exact ⟨rfl, rfl⟩
  · rintro ⟨rfl, rfl⟩
    exact (getLsbD_rowOf_packRows_bitOf i i).2 rfl

end Sys2Proof.Machine

/-! ## FILL: the mask of the arc, its closed forms, and the arc on the ring (`42_fill.md`) -/

namespace Sys2Proof.Machine

theorem fillWord_of_inRange {w : Nat} {word : BitVec w} (h : inRange word = true) :
    fillWord word = .ok (fillMask (indexOf word)) :=
  if_pos h

/-- FILL as its formula, by the two outcomes of the range test (R140, R144). -/
theorem fillWord_eq_ite (k : IdxWord) :
    fillWord k = if k.toNat ≤ 31 then .ok (0xFFFFFFFF#32 <<< (31 - k.toNat)) else .indexOutOfRange := by
  split
  case isTrue hle =>
    have hin : inRange k = true := (inRange_iff_toNat_lt k).2 (Nat.lt_succ_of_le hle)
    rw [fillWord_of_inRange hin, fillMask, toNat_indexOf hin]
  case isFalse hgt => exact fillWord_of_ge (by omega)

/-- Settles O20: FILL drives the FILLER's ports alone, with the result of its word. -/
theorem fillResult : Obligations.FillResult := by
  intro k s
  rw [← fillWord_eq_ite k]
  exact execFill_eq k s

/-- Settles O21: the result that stands on the outputs is the error, which is what `fill_err` says. -/
theorem fillRejectsOutOfRange : Obligations.FillRejectsOutOfRange := by
  intro k s hk
  refine ⟨_, execFill_eq k s, ?_, (errBit_eq_true_iff _).2 (fillWord_of_ge hk)⟩
  rw [fillWord_of_ge hk]
  rfl

/-- The thermometer rule of FILL (R142). -/
theorem getLsbD_fillMask (n : BitVec 5) {b : Nat} (hb : b < 32) :
    (fillMask n).getLsbD b = true ↔ 31 - n.toNat ≤ b := by
  have hones : (0xFFFFFFFF#32).getLsbD (b - (31 - n.toNat)) = true := by
    rw [show 0xFFFFFFFF#32 = BitVec.allOnes 32 from rfl, BitVec.getLsbD_allOnes, decide_eq_true_iff]
    omega
  rw [fillMask, BitVec.getLsbD_shiftLeft, hones]
  simp [hb]

/-- The thermometer rule settles the whole mask. -/
theorem eq_fillMask_of_getLsbD {n : BitVec 5} {m : Mask}
    (h : ∀ b, b < 32 → (m.getLsbD b = true ↔ 31 - n.toNat ≤ b)) : m = fillMask n :=
  BitVec.eq_of_getLsbD_eq fun b hb => Bool.eq_iff_iff.2 ((h b hb).trans (getLsbD_fillMask n hb).symm)

/-- Lamp `i` stands at bit `31 - i` (R48), so in the mask of FILL it is lit exactly up to the shift count. -/
theorem getLsbD_fillMask_lamp (k i : BitVec 5) :
    (fillMask k).getLsbD (31 - i.toNat) = true ↔ i.toNat ≤ k.toNat := by
  rw [getLsbD_fillMask k (by omega)]
  omega

/-- The ones from a bit up are what the ones below it leave out: `~(x - 1)` is `-x`, and `-(1 << j)` is `(-1) << j`. -/
theorem fillMask_eq_not_low_ones (n : BitVec 5) : fillMask n = ~~~((1#32 <<< (31 - n.toNat)) - 1#32) := by
  rw [← BitVec.not_neg, BitVec.not_not, ← BitVec.shiftLeft_neg]
  rfl

/-- The mask of FILL is the OR of the bits of its lamps, each of which is one bit of the thermometer. -/
theorem fillMask_eq_or_of_bits (n : BitVec 5) :
    fillMask n = ((List.range (n.toNat + 1)).map fun i => bitOf (BitVec.ofNat 5 i)).foldl (· ||| ·) 0#32 := by
  refine (eq_fillMask_of_getLsbD fun b hb => ?_).symm
  rw [getLsbD_foldl_or]
  constructor
  · rintro (hzero | ⟨_, hmem, hset⟩)
    · simp at hzero
    · obtain ⟨i, hi, rfl⟩ := List.mem_map.1 hmem
      have hi : i < n.toNat + 1 := List.mem_range.1 hi
      rw [getLsbD_bitOf, BitVec.toNat_ofNat] at hset
      omega
  · intro hlit
    refine .inr ⟨_, List.mem_map.2 ⟨31 - b, List.mem_range.2 (by omega), rfl⟩, ?_⟩
    rw [getLsbD_bitOf, BitVec.toNat_ofNat]
    omega

/-- Settles O22: the mask obeys the thermometer rule, and each closed form is that mask. -/
theorem fillIsThermometer : Obligations.FillIsThermometer :=
  fun n => ⟨fillMask n, fillWord_setWidth n, fun _ => getLsbD_fillMask n, rfl, fillMask_eq_not_low_ones n,
    fillMask_eq_or_of_bits n⟩

/-- The arithmetic shift copies the sign bit, the only one of `0x80000000`, into every place from `31 - n` up (R141). -/
theorem fillMaskSigned_eq_fillMask (n : BitVec 5) : fillMaskSigned n = fillMask n := by
  refine eq_fillMask_of_getLsbD fun b hb => ?_
  have hsign : (BitVec.intMin 32).msb = true := rfl
  rw [fillMaskSigned, asr32, show 0x80000000#32 = BitVec.intMin 32 from rfl, BitVec.getLsbD_sshiftRight, hsign,
    BitVec.getLsbD_intMin]
  simp only [Nat.not_le.2 hb, decide_false, Bool.not_false, Bool.true_and]
  split
  case isTrue hinside =>
    rw [decide_eq_true_iff]
    omega
  case isFalse hbeyond =>
    have hlit : 31 - n.toNat ≤ b := by omega
    simp only [hlit]

/-- Settles O23: the signed form is the unsigned one, which is what FILL answers. -/
theorem fillIsArithmeticShift : Obligations.FillIsArithmeticShift := by
  intro n
  have hsigned := fillMaskSigned_eq_fillMask n
  exact ⟨(fillWord_setWidth n).trans (congrArg Result.ok hsigned.symm), hsigned⟩

/-- Settles O25: the row bit at the place of lamp `i` is the lamp's bit of the mask (R129), and FILL sets it up to `k`. -/
theorem packOfFillLightsArc : Obligations.PackOfFillLightsArc := by
  intro k i s
  refine ⟨_, _, _, _, _, execFill_eq _ s, fillWord_setWidth k, execPack_eq _ _, execMap_eq _ _, mapWord_setWidth i, ?_⟩
  have hbit := getLsbD_rowOf_packRows_mapCoord (fillMask k) i
  exact (Bool.eq_iff_iff.1 hbit).trans (getLsbD_fillMask_lamp k i)

end Sys2Proof.Machine

/-! ## The first step of an update sequence (`43_update_sequences.md` sections 2 and 3) -/

namespace Sys2Proof.Machine

section
variable {s u : State} {c : Nat}

/-- A sequence that goes on puts its rest where the request that began it stood. -/
theorem continueWith_callers_of_take (h : u.callers = (s.take c).callers) (rest : List Request) :
    (u.continueWith c rest).callers = s.callers.modify c fun caller =>
      { pending := rest ++ caller.pending.tail, reply := none } := by
  rw [continueWith_callers, h, take_callers, List.modify_modify_eq]
  rfl

/-- A request that is over leaves its caller the later requests and the reply. -/
theorem giveReply_callers_of_take (h : u.callers = (s.take c).callers) (reply : Option Reply) :
    (u.giveReply c reply).callers = s.callers.modify c fun caller =>
      { pending := caller.pending.tail, reply := reply } := by
  rw [giveReply_callers, h, take_callers, List.modify_modify_eq]
  rfl

end

/-- Settles O39: PACK drives its ports alone, and the four calls come before the caller's later requests. -/
theorem updateFullExpands : Obligations.UpdateFullExpands := by
  intro s c chip mask hfetch
  exact ⟨_, (step_of_fetch hfetch).trans (serve_updateFull c chip mask _), rfl, rfl,
    continueWith_callers_of_take rfl _⟩

/-- The driver call that a single-lamp update issues, in the form that the driver offers (R162). -/
def lampDrvCall (chip : Int) (place : Coord) (lit : Bool) (s : State) : DrvCall :=
  if s.params.hasSetLamp then .setLamp chip place.row.toNat place.col.toNat lit
  else .write chip place.row.toNat (withColumn (s.rowByte chip place.row.toNat) place.col.toNat lit)

theorem lampCall_eq_call (chip : Int) (place : Coord) (lit : Bool) (s : State) :
    lampCall chip place lit s = .call (lampDrvCall chip place lit s) := by
  unfold lampCall lampDrvCall
  split <;> rfl

/-- Settles O40: with a coordinate the one call is that of the driver's form, and a `DrvWrite` carries the row's byte with the
lamp's column changed; with the error there is none. -/
theorem updateLampExpands : Obligations.UpdateLampExpands := by
  intro s c chip idx lit hfetch
  rw [step_of_fetch hfetch]
  cases hmap : mapWord idx with
  | ok place =>
    refine ⟨_, serve_updateLamp_ok hmap, rfl, rfl, ?_, nofun⟩
    rintro _ ⟨⟩
    refine ⟨lampDrvCall chip place lit s, ?_, fun hset => if_pos hset, fun hset => ⟨_, if_neg (by simp [hset]), ?_⟩⟩
    · rw [lampCall_eq_call]
      exact continueWith_callers_of_take rfl _
    · exact withColumn_getLsbD _ place.col.isLt lit
  | indexOutOfRange =>
    exact ⟨_, serve_updateLamp_error hmap, rfl, rfl, nofun,
      fun _ => giveReply_callers_of_take rfl _⟩

/-- Settles O41: the two outcomes of FILL are those of the range of `k`. -/
theorem updateArcExpands : Obligations.UpdateArcExpands := by
  intro s c chip k hfetch
  rw [step_of_fetch hfetch]
  rcases Nat.lt_or_ge k.toNat 32 with hk | hk
  · have hfill := (fillWord_eq_ite k).trans (if_pos (Nat.le_of_lt_succ hk))
    exact ⟨_, serve_updateArc_ok hfill, rfl, rfl, fun _ => ⟨rfl, continueWith_callers_of_take rfl _⟩,
      fun hge => absurd hk (Nat.not_lt.2 hge)⟩
  · exact ⟨_, serve_updateArc_error (fillWord_of_ge hk), rfl, rfl, fun hle => absurd hle (Nat.not_le.2 hk),
      fun _ => ⟨rfl, giveReply_callers_of_take rfl _⟩⟩

/-- Lighting or darkening a lamp in a mask changes the lamp's bit, `31 - i`, and no other lamp's (R168). -/
theorem getLsbD_withLamp (held : Mask) (i : BitVec 5) (lit : Bool) (j : BitVec 5) :
    (withLamp held i lit).getLsbD (31 - j.toNat) = if j = i then lit else held.getLsbD (31 - j.toNat) := by
  have hbit : (bitOf i).getLsbD (31 - j.toNat) = decide (j = i) := by
    rw [Bool.eq_iff_iff, getLsbD_bitOf, decide_eq_true_iff, ← BitVec.toNat_inj]
    omega
  have hlt : 31 - j.toNat < 32 := by omega
  cases lit with
  | true =>
    simp only [withLamp, if_true, BitVec.getLsbD_or, hbit]
    by_cases hj : j = i <;> simp [hj]
  | false =>
    simp only [withLamp, Bool.false_eq_true, if_false, BitVec.getLsbD_and, BitVec.getLsbD_not, hbit, hlt]
    by_cases hj : j = i <;> simp [hj]

/-- A row of PACK that does not hold a lamp does not change with it. -/
theorem rowOf_packRows_withLamp_other (held : Mask) {i : BitVec 5} (lit : Bool) {r : BitVec 2}
    (hr : r ≠ (mapCoord i).row) : rowOf (packRows (withLamp held i lit)) r = rowOf (packRows held) r := by
  refine rowByte_eq_of_lamps r ?_
  rintro j rfl
  have hj : j ≠ i := fun h => hr (congrArg (fun k => (mapCoord k).row) h)
  rw [getLsbD_rowOf_packRows_mapCoord, getLsbD_rowOf_packRows_mapCoord, getLsbD_withLamp, if_neg hj]

/-- Settles O60: the changed mask differs from the held one in one lamp, whose row is the one that MAP names. -/
theorem recomputeLampExpands : Obligations.RecomputeLampExpands := by
  intro s c chip held idx lit hfetch
  rw [step_of_fetch hfetch]
  cases hmap : mapWord idx with
  | ok place =>
    obtain ⟨-, rfl⟩ := (mapWord_eq_ok_iff idx place).1 hmap
    refine ⟨_, serve_recomputeLamp_ok hmap, rfl, rfl, ?_, nofun⟩
    rintro _ _ ⟨⟩ rfl
    exact ⟨rfl, continueWith_callers_of_take rfl _, fun r hr => rowOf_packRows_withLamp_other held lit hr⟩
  | indexOutOfRange =>
    exact ⟨_, serve_recomputeLamp_error hmap, rfl, rfl, nofun,
      fun _ => ⟨rfl, giveReply_callers_of_take rfl _⟩⟩

/-- Settles O42: in each form the unit's result is the error, and the caller goes on with its later requests. -/
theorem errorIssuesNoCall : Obligations.ErrorIssuesNoCall := by
  intro s c chip held word lit hword hfetch
  have hmap := mapWord_of_ge hword
  rcases hfetch with hfetch | hfetch | hfetch <;> rw [step_of_fetch hfetch]
  · exact ⟨_, serve_updateLamp_error hmap, rfl, giveReply_callers_of_take rfl _⟩
  · exact ⟨_, serve_updateArc_error (fillWord_of_ge hword), rfl, giveReply_callers_of_take rfl _⟩
  · exact ⟨_, serve_recomputeLamp_error hmap, rfl, giveReply_callers_of_take rfl _⟩

end Sys2Proof.Machine

/-! ## What no update sequence does to the store and the callers (`43_update_sequences.md` sections 2 and 3) -/

namespace Sys2Proof.Machine
/-- A driver call other than `DrvClear` leaves rows 4 to 7 of every chip: it writes one row of the ring. -/
theorem drvCall_read?_outerRow {call : DrvCall} {s t : State} (h : drvCall call s = .next t)
    (hclear : ∀ chip, call ≠ .clear chip) {chip row : Int} (hchip : 0 ≤ chip) (hlow : 4 ≤ row) (hhigh : row < 8) :
    t.ram.read? (rowAddr chip row) = s.ram.read? (rowAddr chip row) := by
  have hother {chip' row' : Int} (hc : hasChip s.params chip' = true) (hr : isRow row' = true) :
      rowAddr chip row ≠ rowAddr chip' row' := by
    obtain ⟨hr0, hr4⟩ := (isRow_iff row').1 hr
    intro heq
    have hrow := (rowAddr_inj hchip ((hasChip_iff _ _).1 hc).1 ⟨by omega, hhigh⟩ ⟨hr0, by omega⟩ heq).2
    omega
  cases call with
  | write chip' row' v =>
    obtain ⟨hc, hr, rfl⟩ := drvWrite_eq_next h
    exact Memory.read?_write_other _ _ (hother hc hr)
  | setLamp chip' row' col lit =>
    obtain ⟨-, hc, hr, -, rfl⟩ := drvSetLamp_eq_next h
    exact Memory.read?_write_other _ _ (hother hc hr)
  | clear chip' => exact absurd rfl (hclear chip')

/-- Settles O44: a step that stores issues a driver call, and one that is no `DrvClear` leaves the outer rows. -/
theorem outerRowsOnlyCleared : Obligations.OuterRowsOnlyCleared := by
  intro s t h hno chip row hchip hlow hhigh
  rcases step_eq_next h with ⟨-, rfl⟩ | ⟨c, r, hfetch, hserve⟩
  · rfl
  · rcases serve_eq_next hserve with ⟨d, u, rfl, hu, rfl⟩ | ⟨-, m, p, f, g, rfl, -, -, -⟩
    · have hclear (chip' : Int) : d ≠ .clear chip' := fun hd => hno c chip' (hd ▸ hfetch)
      exact drvCall_read?_outerRow hu hclear hchip hlow hhigh
    · rfl

/-- Whatever is served, its caller keeps the later requests, and what the sequence puts before them does not clear (R165). -/
theorem serve_continues {c : Nat} {r : Request} {s t : State} (h : serve c r s = .next t) :
    ∃ rest reply, (t.callers = s.callers.modify c fun caller => { pending := rest ++ caller.pending, reply := reply }) ∧
      ∀ chip, .call (.clear chip) ∉ rest := by
  cases r with
  | word port bytes =>
    cases hd : decode port bytes with
    | error e => rw [serve_word_error hd] at h; cases h
    | ok i =>
      obtain ⟨u, hu⟩ := exec_eq_next i s
      rw [serve_word hd hu] at h
      cases h
      exact ⟨[], _, by rw [giveReply_callers, exec_callers hu]; rfl, by simp⟩
  | updateFull chip mask =>
    rw [serve_updateFull] at h; cases h
    exact ⟨_, _, rfl, by simp [fullCalls]⟩
  | updateLamp chip idx lit =>
    cases hm : mapWord idx with
    | ok place =>
      rw [serve_updateLamp_ok hm] at h; cases h
      refine ⟨_, _, rfl, fun chip' => ?_⟩
      unfold lampCall
      split <;> simp
    | indexOutOfRange =>
      rw [serve_updateLamp_error hm] at h; cases h
      exact ⟨[], _, rfl, by simp⟩
  | updateArc chip k =>
    cases hm : fillWord k with
    | ok mask => rw [serve_updateArc_ok hm] at h; cases h; exact ⟨_, _, rfl, by simp⟩
    | indexOutOfRange => rw [serve_updateArc_error hm] at h; cases h; exact ⟨[], _, rfl, by simp⟩
  | recomputeLamp chip held idx lit =>
    cases hm : mapWord idx with
    | ok place => rw [serve_recomputeLamp_ok hm] at h; cases h; exact ⟨_, _, rfl, by simp⟩
    | indexOutOfRange => rw [serve_recomputeLamp_error hm] at h; cases h; exact ⟨[], _, rfl, by simp⟩
  | call d =>
    obtain ⟨u, hu, rfl⟩ := serve_call_eq_next h
    obtain ⟨m, rfl⟩ := drvCall_eq_next hu
    exact ⟨[], _, rfl, by simp⟩

/-- Changing one caller adds no `DrvClear` when every `DrvClear` it then has was its own. -/
theorem noClearPending_of_modify {s t : State} {c : Nat} {g : Caller → Caller} (hs : NoClearPending s)
    (hcallers : t.callers = s.callers.modify c g)
    (hg : ∀ caller chip, .call (.clear chip) ∈ (g caller).pending → .call (.clear chip) ∈ caller.pending) :
    NoClearPending t := by
  intro caller hcaller chip hclear
  rw [hcallers, List.mem_iff_getElem?] at hcaller
  obtain ⟨i, hi⟩ := hcaller
  rw [List.getElem?_modify] at hi
  obtain ⟨old, hold, rfl⟩ := Option.map_eq_some_iff.1 hi
  refine hs old (List.mem_of_getElem? hold) chip ?_
  split at hclear
  · exact hg old chip hclear
  · exact hclear

/-- Settles O45: the caller served keeps some of its requests and gets none that clears. -/
theorem noSequenceClears : Obligations.NoSequenceClears := by
  intro s t hs h
  rcases step_eq_next h with ⟨-, rfl⟩ | ⟨c, r, -, hserve⟩
  · exact hs
  · obtain ⟨rest, reply, hcallers, hrest⟩ := serve_continues hserve
    have htake : NoClearPending (s.take c) :=
      noClearPending_of_modify hs (take_callers s c) fun _ _ => List.mem_of_mem_tail
    refine noClearPending_of_modify htake hcallers fun caller chip hclear => ?_
    exact (List.mem_append.1 hclear).resolve_left (hrest chip)

end Sys2Proof.Machine

/-! ## The rows and lamps of a chip, and the four writes in any order (`20_memory.md` sections 2 and 6) -/

namespace Sys2Proof.Machine

/-- A lamp is its place's bit in its place's row (R62). -/
theorem lit_eq (s : State) (chip : Int) (i : BitVec 5) :
    s.lit chip i = (s.rowByte chip (mapCoord i).row.toNat).getLsbD (7 - (mapCoord i).col.toNat) := rfl

theorem Rows.ext_rowOf {a b : Rows} (h : ∀ r, rowOf a r = rowOf b r) : a = b := by
  obtain ⟨a0, a1, a2, a3⟩ := a
  obtain ⟨b0, b1, b2, b3⟩ := b
  obtain rfl : a0 = b0 := h 0#2
  obtain rfl : a1 = b1 := h 1#2
  obtain rfl : a2 = b2 := h 2#2
  obtain rfl : a3 = b3 := h 3#2
  rfl

/-- Rows 0 to 3 hold PACK of a mask exactly when every lamp is as the mask says (R129). -/
theorem ringRows_eq_packRows_iff (s : State) (chip : Int) (mask : Mask) :
    ringRows s chip = packRows mask ↔ ∀ i, s.lit chip i = mask.getLsbD (31 - i.toNat) := by
  constructor
  · intro h i
    rw [lit_eq, ← rowOf_ringRows, h, getLsbD_rowOf_packRows_mapCoord]
  · intro h
    refine Rows.ext_rowOf fun r => rowByte_eq_of_lamps r ?_
    rintro i rfl
    rw [rowOf_ringRows, ← lit_eq, h, getLsbD_rowOf_packRows_mapCoord]

section
variable {s t : State}

/-! Rows and lamps are read from the store alone. -/

theorem ringRows_congr (h : t.ram = s.ram) (chip : Int) : ringRows t chip = ringRows s chip := by
  simp only [ringRows, State.rowByte, h]

theorem lit_congr (h : t.ram = s.ram) (chip : Int) (i : BitVec 5) : t.lit chip i = s.lit chip i := by
  simp only [lit_eq, State.rowByte, h]

end

/-- A row of the ring after another or the same one is put. -/
theorem rowByte_putRow (s : State) {chip row row' : Int} (v : Byte) (hchip : 0 ≤ chip) (hr : isRow row = true)
    (hr' : isRow row' = true) :
    (s.putRow chip row v).rowByte chip row' = if row' = row then v else s.rowByte chip row' := by
  split
  case isTrue heq => rw [heq, rowByte_putRow_same]
  case isFalse hne => exact rowByte_putRow_other s v hchip (isRow_bounds hr) (isRow_bounds hr') hne

theorem rowOf_ringRows_putRow (s : State) {chip : Int} (r r' : BitVec 2) (v : Byte) (hchip : 0 ≤ chip) :
    rowOf (ringRows (s.putRow chip r.toNat v) chip) r' = if r' = r then v else rowOf (ringRows s chip) r' := by
  rw [rowOf_ringRows, rowByte_putRow s v hchip (isRow_coord r) (isRow_coord r'), rowOf_ringRows]
  simp only [Nat.cast_inj, BitVec.toNat_inj]

/-- The store with the four rows of a full-state update put, in the order of R161. -/
def State.putRows (s : State) (chip : Int) (rows : Rows) : State :=
  (((s.putRow chip 0 rows.row0).putRow chip 1 rows.row1).putRow chip 2 rows.row2).putRow chip 3 rows.row3

theorem ringRows_putRows (s : State) {chip : Int} (rows : Rows) (hchip : 0 ≤ chip) :
    ringRows (s.putRows chip rows) chip = rows := by
  have hrows : isRow 0 = true ∧ isRow 1 = true ∧ isRow 2 = true ∧ isRow 3 = true := by decide
  simp [ringRows, State.putRows, rowByte_putRow, hchip, hrows]

/-- The frame of the four rows: an address outside rows 0 to 3 of the chip reads as before (R167). -/
theorem read?_putRows_other (s : State) {chip : Int} (rows : Rows) {a : Nat}
    (ha : ∀ row : Int, isRow row = true → a ≠ rowAddr chip row) :
    (s.putRows chip rows).ram.read? a = s.ram.read? a := by
  simp only [State.putRows, putRow_ram]
  rw [Memory.read?_write_other _ _ (ha 3 (by decide)), Memory.read?_write_other _ _ (ha 2 (by decide)),
    Memory.read?_write_other _ _ (ha 1 (by decide)), Memory.read?_write_other _ _ (ha 0 (by decide))]

/-- The store with the bit of one lamp set or cleared (R45, R47). -/
def State.putLamp (s : State) (chip : Int) (place : Coord) (lit : Bool) : State :=
  s.putRow chip place.row.toNat (withColumn (s.rowByte chip place.row.toNat) place.col.toNat lit)

theorem read?_putLamp_other (s : State) {chip : Int} {place : Coord} (lit : Bool) {a : Nat}
    (ha : ∀ row : Int, isRow row = true → a ≠ rowAddr chip row) :
    (s.putLamp chip place lit).ram.read? a = s.ram.read? a :=
  Memory.read?_write_other _ _ (ha _ (isRow_coord place.row))

/-- Lamps of one row are told apart by their bits, since MAP gives every lamp a coordinate of its own (R104). -/
theorem lampBit_eq_iff {i j : BitVec 5} (hrow : (mapCoord j).row = (mapCoord i).row) :
    7 - (mapCoord j).col.toNat = 7 - (mapCoord i).col.toNat ↔ j = i := by
  refine ⟨fun hbit => Function.LeftInverse.injective unmap_mapCoord ?_, fun h => h ▸ rfl⟩
  have hcol : (mapCoord j).col = (mapCoord i).col := BitVec.eq_of_toNat_eq (by omega)
  calc mapCoord j = ⟨(mapCoord j).row, (mapCoord j).col⟩ := rfl
    _ = ⟨(mapCoord i).row, (mapCoord i).col⟩ := by rw [hrow, hcol]

/-- Putting a lamp changes that lamp and no other of the ring. -/
theorem lit_putLamp (s : State) {chip : Int} (i j : BitVec 5) (lit : Bool) (hchip : 0 ≤ chip) :
    (s.putLamp chip (mapCoord i) lit).lit chip j = if j = i then lit else s.lit chip j := by
  rw [lit_eq, State.putLamp, ← rowOf_ringRows, rowOf_ringRows_putRow s _ _ _ hchip]
  by_cases hrow : (mapCoord j).row = (mapCoord i).row
  · rw [if_pos hrow, withColumn_getLsbD _ (mapCoord i).col.isLt, lit_eq, hrow]
    simp only [lampBit_eq_iff hrow]
  · have hne : j ≠ i := fun h => hrow (h ▸ rfl)
    rw [if_neg hrow, if_neg hne, rowOf_ringRows, lit_eq]

/-- The driver call that writes a row of a chip with its byte among four. -/
def rowWrite (chip : Int) (rows : Rows) (r : BitVec 2) : DrvCall := .write chip r.toNat (rowOf rows r)

/-- The four writes of a full-state update, in the order of R161. -/
def fullWrites (chip : Int) (rows : Rows) : List DrvCall := [0#2, 1#2, 2#2, 3#2].map (rowWrite chip rows)

theorem fullCalls_eq_map (chip : Int) (rows : Rows) : fullCalls chip rows = (fullWrites chip rows).map .call := rfl

theorem runCalls_cons {call : DrvCall} {rest : List DrvCall} {s t : State} (h : drvCall call s = .next t) :
    runCalls (call :: rest) s = runCalls rest t := by
  rw [runCalls, h]

theorem runCalls_rowWrite {chip : Int} {s : State} (hc : hasChip s.params chip = true) (rows : Rows) (r : BitVec 2)
    (rest : List DrvCall) :
    runCalls (rowWrite chip rows r :: rest) s = runCalls rest (s.putRow chip r.toNat (rowOf rows r)) :=
  runCalls_cons (drvWrite_of_exists hc (isRow_coord r) _)

theorem runCalls_fullWrites {chip : Int} {s : State} (hc : hasChip s.params chip = true) (rows : Rows) :
    runCalls (fullWrites chip rows) s = some (s.putRows chip rows) := by
  simp only [fullWrites, List.map_cons, List.map_nil, runCalls_rowWrite, putRow_params, hc]
  rfl

/-- Writes commute where writes to one address write one byte. -/
theorem Memory.write_comm {m : Memory} (hm : Memory.wf m) {a b : Nat} {v w : Byte} (h : a = b → v = w) :
    (m.write a v).write b w = (m.write b w).write a v := by
  refine Memory.ext_read? (Memory.write_wf (Memory.write_wf hm a v) b w) (Memory.write_wf (Memory.write_wf hm b w) a v)
    fun x => ?_
  simp only [Memory.read?_write]
  by_cases ha : x = a
  · by_cases hb : x = b
    · rw [if_pos hb, if_pos ha, h (ha.symm.trans hb)]
    · rw [if_neg hb, if_pos ha, if_pos ha]
  · rw [if_neg ha, if_neg ha]

/-- Two writes of the rows' own bytes commute: the rows differ, or the bytes do not. -/
theorem putRow_comm {s : State} (hwf : Memory.wf s.ram) {chip : Int} (hchip : 0 ≤ chip) (rows : Rows) (q r : BitVec 2) :
    (s.putRow chip q.toNat (rowOf rows q)).putRow chip r.toNat (rowOf rows r) =
      (s.putRow chip r.toNat (rowOf rows r)).putRow chip q.toNat (rowOf rows q) := by
  have hbyte (h : rowAddr chip q.toNat = rowAddr chip r.toNat) : rowOf rows q = rowOf rows r := by
    have hrow := (rowAddr_inj hchip hchip (isRow_bounds (isRow_coord q)) (isRow_bounds (isRow_coord r)) h).2
    rw [BitVec.eq_of_toNat_eq (Int.ofNat.inj hrow)]
  simp only [State.putRow, Memory.write_comm hwf hbyte]

/-- Writes of the rows' own bytes run to the same outcome in every order. -/
theorem runCalls_perm {chip : Int} {rows : Rows} {calls calls' : List DrvCall} (h : calls.Perm calls') {s : State}
    (hwf : Memory.wf s.ram) (hc : hasChip s.params chip = true) (hcalls : ∀ call ∈ calls, ∃ r, call = rowWrite chip rows r) :
    runCalls calls s = runCalls calls' s := by
  induction h generalizing s with
  | nil => rfl
  | cons call _ ih =>
    obtain ⟨⟨r, rfl⟩, hrest⟩ := List.forall_mem_cons.1 hcalls
    rw [runCalls_rowWrite hc, runCalls_rowWrite hc]
    exact ih (Memory.write_wf hwf _ _) hc hrest
  | swap q r _ =>
    obtain ⟨⟨r, rfl⟩, ⟨q, rfl⟩, -⟩ := by simpa only [List.forall_mem_cons] using hcalls
    simp only [runCalls_rowWrite, putRow_params, hc, putRow_comm hwf ((hasChip_iff _ _).1 hc).1 rows r q]
  | trans hfirst _ ih ih' =>
    exact (ih hwf hc hcalls).trans (ih' hwf hc fun call hcall => hcalls call (hfirst.mem_iff.2 hcall))

/-- Settles O55: the four writes in any order run as in the order of R161, which puts the four rows. -/
theorem fullWriteOrderDoesNotMatter : Obligations.FullWriteOrderDoesNotMatter := by
  intro s chip rows order hwf hc horder
  have hrun := runCalls_fullWrites hc rows
  have hcalls (call : DrvCall) (hcall : call ∈ order) : ∃ r, call = rowWrite chip rows r := by
    have hmem : call ∈ fullWrites chip rows := horder.mem_iff.1 hcall
    obtain ⟨r, -, hr⟩ := List.mem_map.1 hmem
    exact ⟨r, hr.symm⟩
  exact ⟨_, (runCalls_perm horder hwf hc hcalls).trans hrun, hrun⟩

end Sys2Proof.Machine

/-! ## A sequence that no other caller comes between (`43_update_sequences.md` section 3) -/

namespace Sys2Proof.Machine

/-- A call answers from the store and the parameters alone, and changes the store alone. -/
theorem drvCall_congr {call : DrvCall} {s t u : State} (h : drvCall call s = .next u) (hparams : t.params = s.params)
    (hram : t.ram = s.ram) : drvCall call t = .next { t with ram := u.ram } := by
  cases call with
  | write chip row v =>
    obtain ⟨hc, hr, rfl⟩ := drvWrite_eq_next h
    rw [← hparams] at hc
    simp only [drvCall, drvWrite_of_exists hc hr, State.putRow, hram]
  | setLamp chip row col lit =>
    obtain ⟨hs, hc, hr, hl, rfl⟩ := drvSetLamp_eq_next h
    rw [← hparams] at hs hc
    simp only [drvCall, drvSetLamp_of_exists hs hc hr hl, State.putRow, State.rowByte, hram]
  | clear chip =>
    obtain ⟨hc, rfl⟩ := drvClear_eq_next h
    rw [← hparams] at hc
    simp only [drvCall, drvClear_of_exists hc, hram]

/-- After `k` steps the callers and the row store are as given. -/
def RunsTo (k : Nat) (s : State) (callers : List Caller) (ram : Memory) : Prop :=
  ∃ t, steps k s = some t ∧ t.callers = callers ∧ t.ram = ram

theorem steps_succ_of_step {k : Nat} {s t : State} (h : step s = .next t) : steps (k + 1) s = steps k t := by
  rw [steps, h]

theorem RunsTo.of_step {k : Nat} {s t : State} {callers : List Caller} {ram : Memory} (hstep : step s = .next t)
    (ht : RunsTo k t callers ram) : RunsTo (k + 1) s callers ram := by
  rw [RunsTo, steps_succ_of_step hstep]
  exact ht

/-- No number of steps changes the parameters (R29). -/
theorem steps_params {k : Nat} {s t : State} (h : steps k s = some t) : t.params = s.params := by
  induction k generalizing s with
  | zero => cases h; rfl
  | succ k ih =>
    cases hstep : step s with
    | next u =>
      rw [steps_succ_of_step hstep] at h
      exact (ih h).trans (stepServesOneCaller s u hstep).1
    | fault r => simp [steps, hstep] at h
    | refused r => simp [steps, hstep] at h

theorem steps_add (m n : Nat) (s : State) : steps (m + n) s = (steps m s).bind (steps n) := by
  induction m generalizing s with
  | zero => simp [steps]
  | succ m ih =>
    rw [Nat.succ_add, steps, steps]
    cases step s with
    | next t => exact ih t
    | fault r => rfl
    | refused r => rfl

section
variable {s : State} {chip : Int} {r : Request} {rest : List Request} {reply : Option Reply}

/-- A sole caller's first request is the one served. -/
theorem step_sole (h : s.callers = [{ pending := r :: rest, reply := reply }]) : step s = serve 0 r (s.take 0) :=
  step_of_fetch (fetch_single h)

/-- A sole caller's sequence goes on before the caller's later requests. -/
theorem continueWith_callers_sole {u : State} (h : s.callers = [{ pending := r :: rest, reply := reply }])
    (hu : u.callers = (s.take 0).callers) (new : List Request) :
    (u.continueWith 0 new).callers = [{ pending := new ++ rest, reply := none }] := by
  rw [continueWith_callers_of_take hu, h]
  rfl

/-- The driver calls of a sole caller are served one a step, with the effect that they have one after another. -/
theorem runsTo_calls {calls : List DrvCall} {t u : State}
    (hcallers : t.callers = [{ pending := calls.map .call ++ rest, reply := reply }]) (hrun : runCalls calls s = some u)
    (hparams : t.params = s.params) (hram : t.ram = s.ram) :
    RunsTo calls.length t [{ pending := rest, reply := if calls = [] then reply else some .done }] u.ram := by
  induction calls generalizing s t reply with
  | nil =>
    cases hrun
    exact ⟨t, rfl, hcallers, hram⟩
  | cons call later ih =>
    cases hcall : drvCall call s with
    | next v =>
      rw [runCalls_cons hcall] at hrun
      have hserve := serve_call (c := 0) (drvCall_congr (t := t.take 0) hcall hparams hram)
      have hv : v.params = s.params := by
        obtain ⟨m, rfl⟩ := drvCall_eq_next hcall
        rfl
      have hlater := ih (reply := some .done)
        (t := ({ t.take 0 with ram := v.ram } : State).giveReply 0 (some .done)) (by simp [hcallers]) hrun
        (hparams.trans hv.symm) rfl
      simpa using RunsTo.of_step ((step_sole hcallers).trans hserve) hlater
    | fault r => simp [runCalls, hcall] at hrun
    | refused r => simp [runCalls, hcall] at hrun

/-- A full-state update of a sole caller: PACK, then the four writes (R161). -/
theorem runsTo_updateFull {mask : Mask} (hc : hasChip s.params chip = true)
    (h : s.callers = [{ pending := .updateFull chip mask :: rest, reply := reply }]) :
    RunsTo 5 s [{ pending := rest, reply := some .done }] (s.putRows chip (packRows mask)).ram := by
  refine RunsTo.of_step ((step_sole h).trans (serve_updateFull 0 chip mask _)) ?_
  exact runsTo_calls (calls := fullWrites chip (packRows mask)) (continueWith_callers_sole h rfl _)
    (runCalls_fullWrites hc _) rfl rfl

/-- An arc update of a sole caller: FILL, then the full-state update of its mask (R163). -/
theorem runsTo_updateArc {k : BitVec 5} (hc : hasChip s.params chip = true)
    (h : s.callers = [{ pending := .updateArc chip (k.setWidth 8) :: rest, reply := reply }]) :
    RunsTo 6 s [{ pending := rest, reply := some .done }] (s.putRows chip (packRows (fillMask k))).ram := by
  refine RunsTo.of_step ((step_sole h).trans (serve_updateArc_ok (fillWord_setWidth k))) ?_
  exact runsTo_updateFull hc (continueWith_callers_sole h rfl _)

/-- Either form of a single-lamp update's call puts the lamp. -/
theorem drvCall_lampDrvCall (hc : hasChip s.params chip = true) (place : Coord) (lit : Bool) :
    drvCall (lampDrvCall chip place lit s) s = .next (s.putLamp chip place lit) := by
  unfold lampDrvCall
  split
  case isTrue hset => exact drvSetLamp_of_exists hset hc (isRow_coord _) (isCol_coord _) lit
  case isFalse => exact drvWrite_of_exists hc (isRow_coord _) _

/-- A single-lamp update of a sole caller: MAP, then the one call (R162). -/
theorem runsTo_updateLamp {i : BitVec 5} {lit : Bool} (hc : hasChip s.params chip = true)
    (h : s.callers = [{ pending := .updateLamp chip (i.setWidth 8) lit :: rest, reply := reply }]) :
    RunsTo 2 s [{ pending := rest, reply := some .done }] (s.putLamp chip (mapCoord i) lit).ram := by
  refine RunsTo.of_step ((step_sole h).trans (serve_updateLamp_ok (mapWord_setWidth i))) ?_
  rw [lampCall_eq_call]
  exact runsTo_calls (s := s) (calls := [lampDrvCall chip (mapCoord i) lit s]) (continueWith_callers_sole h rfl _)
    (runCalls_cons (drvCall_lampDrvCall hc _ lit)) rfl rfl

/-- The recomputing form of a sole caller: MAP and PACK, then the one write (R168). -/
theorem runsTo_recomputeLamp {held : Mask} {i : BitVec 5} {lit : Bool} (hc : hasChip s.params chip = true)
    (h : s.callers = [{ pending := .recomputeLamp chip held (i.setWidth 8) lit :: rest, reply := reply }]) :
    RunsTo 2 s [{ pending := rest, reply := some .done }]
      (s.putRow chip (mapCoord i).row.toNat (rowOf (packRows (withLamp held i lit)) (mapCoord i).row)).ram := by
  refine RunsTo.of_step ((step_sole h).trans (serve_recomputeLamp_ok (mapWord_setWidth i))) ?_
  rw [indexOf_setWidth]
  exact runsTo_calls (s := s) (calls := [rowWrite chip (packRows (withLamp held i lit)) (mapCoord i).row])
    (continueWith_callers_sole h rfl _) (runCalls_rowWrite hc _ _ []) rfl rfl

end

/-- Settles O52: the two steps put the lamp, which is in a row of the ring. -/
theorem updateLampChangesOneLamp : Obligations.UpdateLampChangesOneLamp := by
  intro s chip i lit rest reply hc h
  obtain ⟨t, hsteps, hcallers, hram⟩ := runsTo_updateLamp hc h
  refine ⟨t, hsteps, hcallers, fun j => ?_, fun a ha => ?_⟩
  · rw [lit_congr hram, lit_putLamp s i j lit ((hasChip_iff _ _).1 hc).1]
  · rw [hram]
    exact read?_putLamp_other s lit ha

/-- Settles O53: the five steps put the four rows. -/
theorem updateFullWritesPack : Obligations.UpdateFullWritesPack := by
  intro s chip mask rest reply hc h
  obtain ⟨t, hsteps, hcallers, hram⟩ := runsTo_updateFull hc h
  refine ⟨t, hsteps, ?_, hcallers, fun a ha => ?_⟩
  · rw [ringRows_congr hram, ringRows_putRows s _ ((hasChip_iff _ _).1 hc).1]
  · rw [hram]
    exact read?_putRows_other s _ ha

/-- Settles O56: the six steps put PACK of FILL's mask, which lights exactly lamps 0 to `k`. -/
theorem updateArcShowsArc : Obligations.UpdateArcShowsArc := by
  intro s chip k rest reply hc h
  obtain ⟨t, hsteps, hcallers, hram⟩ := runsTo_updateArc hc h
  have hrows : ringRows t chip = packRows (fillMask k) := by
    rw [ringRows_congr hram, ringRows_putRows s _ ((hasChip_iff _ _).1 hc).1]
  refine ⟨t, hsteps, fun i => ?_, hcallers, fun a ha => ?_⟩
  · rw [(ringRows_eq_packRows_iff t chip _).1 hrows i]
    exact getLsbD_fillMask_lamp k i
  · rw [hram]
    exact read?_putRows_other s _ ha

/-- Settles O57: MAP's row is written with PACK of the changed mask, and the other rows of PACK do not change. -/
theorem recomputedLampWritesPack : Obligations.RecomputedLampWritesPack := by
  intro s chip held i lit rest reply hc hheld h
  obtain ⟨t, hsteps, hcallers, hram⟩ := runsTo_recomputeLamp hc h
  refine ⟨t, hsteps, Rows.ext_rowOf fun r => ?_, hcallers, fun a ha => ?_⟩
  · rw [ringRows_congr hram, rowOf_ringRows_putRow s _ r _ ((hasChip_iff _ _).1 hc).1, hheld]
    split
    case isTrue hrow => rw [hrow]
    case isFalse hrow => exact (rowOf_packRows_withLamp_other held lit hrow).symm
  · rw [hram]
    exact Memory.read?_write_other _ _ ha

/-- The single-lamp updates that show a mask, for the lamps of a list, in its order (R166). -/
def lampUpdates (chip : Int) (mask : Mask) (order : List (BitVec 5)) : List Request :=
  order.map fun i => .updateLamp chip (i.setWidth 8) (mask.getLsbD (31 - i.toNat))

/-- Single-lamp updates of a sole caller leave the lamps that they name as the mask says, in whatever order and however often
they are named, and every other lamp and byte as before. -/
theorem steps_lampUpdates {chip : Int} (mask : Mask) (order : List (BitVec 5)) {s : State} {reply : Option Reply}
    (hc : hasChip s.params chip = true)
    (h : s.callers = [{ pending := lampUpdates chip mask order, reply := reply }]) :
    ∃ t, steps (2 * order.length) s = some t ∧ (∀ caller ∈ t.callers, caller.pending = []) ∧
      (∀ j, t.lit chip j = if j ∈ order then mask.getLsbD (31 - j.toNat) else s.lit chip j) ∧
      ∀ a, (∀ row : Int, isRow row = true → a ≠ rowAddr chip row) → t.ram.read? a = s.ram.read? a := by
  induction order generalizing s reply with
  | nil => exact ⟨s, rfl, by simp [h, lampUpdates], by simp, fun _ _ => rfl⟩
  | cons i later ih =>
    obtain ⟨u, hu, hcallers, hlit, hframe⟩ := updateLampChangesOneLamp s chip i _ _ reply hc h
    obtain ⟨t, ht, hdone, hlit', hframe'⟩ := ih (steps_params hu ▸ hc) hcallers
    refine ⟨t, ?_, hdone, fun j => ?_, fun a ha => (hframe' a ha).trans (hframe a ha)⟩
    · rw [List.length_cons, Nat.mul_succ, Nat.add_comm, steps_add, hu]
      exact ht
    · rw [hlit', hlit]
      by_cases hlater : j ∈ later
      · simp [hlater]
      · by_cases hj : j = i <;> simp [hlater, hj]

/-- Settles O54: both paths leave every lamp as the mask says, and so the same four rows. -/
theorem fullUpdateEqualsLampUpdates : Obligations.FullUpdateEqualsLampUpdates := by
  intro s s' chip mask order hc hc' hlength horder
  obtain ⟨t, hsteps, hrows, hcallers, hframe⟩ := updateFullWritesPack
    { s with callers := [{ pending := [.updateFull chip mask], reply := none }] } chip mask [] none hc rfl
  obtain ⟨t', hsteps', hdone', hlit', hframe'⟩ := steps_lampUpdates mask order
    (s := { s' with callers := [{ pending := lampUpdates chip mask order, reply := none }] }) hc' rfl
  rw [hlength] at hsteps'
  have hrows' : ringRows t' chip = packRows mask :=
    (ringRows_eq_packRows_iff t' chip mask).2 fun i => (hlit' i).trans (if_pos (horder i))
  exact ⟨t, t', hsteps, hsteps', (ringRows_eq_packRows_iff t chip mask).1 hrows, hrows, hrows', by simp [hcallers], hdone',
    fun a ha => ⟨hframe a ha, hframe' a ha⟩⟩

end Sys2Proof.Machine

/-! ## An error is not latched (`60_exceptions.md` section 1) -/

namespace Sys2Proof.Machine

section
variable (s : State)

theorem driveMapper_driveMapper (idx idx' : IdxWord) (coord coord' : Result Coord) :
    (s.driveMapper idx coord).driveMapper idx' coord' = s.driveMapper idx' coord' := rfl

theorem drivePacker_drivePacker (mask mask' : Mask) (rows rows' : Rows) :
    (s.drivePacker mask rows).drivePacker mask' rows' = s.drivePacker mask' rows' := rfl

theorem driveFiller_driveFiller (k k' : IdxWord) (filled filled' : Result Mask) :
    (s.driveFiller k filled).driveFiller k' filled' = s.driveFiller k' filled' := rfl

end

/-- An evaluation leaves no trace of the word that stood on its port before, nor of that word's result or error: it drives its
unit's ports anew, and an earlier evaluation on the same port changed nothing else. -/
theorem exec_overwrites : ∀ {i j : Instr} (s : State), (encode i).1 = (encode j).1 →
    onNext (exec i s) (exec j) = exec j s
  | .map _, .map _, s, _ => congrArg Host.Outcome.next (driveMapper_driveMapper s ..)
  | .pack _, .pack _, s, _ => congrArg Host.Outcome.next (drivePacker_drivePacker s ..)
  | .fill _, .fill _, s, _ => congrArg Host.Outcome.next (driveFiller_driveFiller s ..)
  | .map _, .pack _, _, hports | .map _, .fill _, _, hports | .pack _, .map _, _, hports
  | .pack _, .fill _, _, hports | .fill _, .map _, _, hports | .fill _, .pack _, _, hports => nomatch hports

theorem errBit_eq_false_iff {α : Type} (out : Result α) : errBit out = false ↔ out ≠ .indexOutOfRange := by
  rw [← Bool.not_eq_true, errBit_eq_true_iff]

/-- `map_err` is 0 exactly when MAP's caller gets back a coordinate. -/
theorem mapErr_eq_false_iff_replyTo (idx : IdxWord) (s : State) :
    s.mapErr = false ↔ replyTo (.map idx) s ≠ .indexOutOfRange := by
  rw [State.mapErr, errBit_eq_false_iff, replyTo_map, Ne, Ne, coordReply_eq_error_iff]

/-- `fill_err` is 0 exactly when FILL's caller gets back a mask. -/
theorem fillErr_eq_false_iff_replyTo (k : IdxWord) (s : State) :
    s.fillErr = false ↔ replyTo (.fill k) s ≠ .indexOutOfRange := by
  rw [State.fillErr, errBit_eq_false_iff, replyTo_fill, Ne, Ne, maskReply_eq_error_iff]

/-- Settles O28: the second evaluation overwrites the first, and the error bit says whether its own reply is the error. -/
theorem errorsDoNotStick : Obligations.ErrorsDoNotStick := by
  intro i j s hports
  obtain ⟨t, ht⟩ := exec_eq_next i s
  obtain ⟨u, hu⟩ := exec_eq_next j s
  have hagain : exec j t = exec j s := by simpa [ht] using exec_overwrites s hports
  refine ⟨t, u, ht, hagain.trans hu, hu, fun hfits => ?_⟩
  have hreply : replyTo j u ≠ .indexOutOfRange := by
    rw [replyTo_of_exec hu]
    exact (wellFormed_iff_resultOf j).1 hfits
  refine ⟨hreply, ?_, ?_⟩
  · rintro word rfl
    exact (mapErr_eq_false_iff_replyTo word u).2 hreply
  · rintro word rfl
    exact (fillErr_eq_false_iff_replyTo word u).2 hreply

end Sys2Proof.Machine

/-! ## How many lamps FILL lights, and the state before anything is asked (`70_reset_and_hazards.md` sections 1 and 3) -/

namespace Sys2Proof.Machine

/-- By the thermometer rule (R142), the set bits of the mask are those from bit `31 - k` up. -/
theorem filter_getLsbD_fillMask (k : BitVec 5) :
    ((List.range 32).filter fun b => (fillMask k).getLsbD b) = List.Ico (31 - k.toNat) 32 := by
  calc (List.range 32).filter (fun b => (fillMask k).getLsbD b)
    _ = (List.range 32).filter fun b => decide (31 - k.toNat ≤ b) :=
      List.filter_congr fun b hb =>
        Bool.eq_iff_iff.2 ((getLsbD_fillMask k (List.mem_range.1 hb)).trans decide_eq_true_iff.symm)
    _ = List.Ico (31 - k.toNat) 32 := by
      rw [← List.Ico.zero_bot, List.Ico.filter_le, Nat.zero_max]

theorem length_filter_getLsbD_fillMask (k : BitVec 5) :
    ((List.range 32).filter fun b => (fillMask k).getLsbD b).length = k.toNat + 1 := by
  rw [filter_getLsbD_fillMask, List.Ico.length]
  omega

/-- Lamp 0 is lit whatever the shift count. -/
theorem fillMask_ne_zero (k : BitVec 5) : fillMask k ≠ 0#32 := by
  intro hzero
  have hlit : (fillMask k).getLsbD 31 = true := (getLsbD_fillMask_lamp k 0#5).2 (Nat.zero_le _)
  rw [hzero, BitVec.getLsbD_zero] at hlit
  cases hlit

/-- Settles O24: `k + 1` bits are set, and a count `n` from 1 to 32 leaves `n - 1` in range of the five bits. -/
theorem fillCountsFromZero : Obligations.FillCountsFromZero := by
  refine ⟨fun k => ⟨length_filter_getLsbD_fillMask k, fillMask_ne_zero k⟩, fun n hpos hle => ?_⟩
  rw [length_filter_getLsbD_fillMask, BitVec.toNat_ofNat]
  omega

/-- The outputs at reset are what each unit gives for word 0 (R211). -/
theorem reset_portsSettled : PortsSettled State.reset := by
  refine ⟨?mapper, ?packer, ?filler⟩
  case mapper => exact (mapWord_setWidth 0#5).symm
  case packer => rfl
  case filler => exact (fillWord_setWidth 0#5).symm

/-- The row store lists no address, so there is none to be out of order or out of bounds. -/
theorem reset_storeInBounds : StoreInBounds State.reset :=
  ⟨List.Pairwise.nil, fun _ hcell => absurd hcell List.not_mem_nil⟩

/-- There is no caller, so no request is pending. -/
theorem reset_allAdmissible : AllAdmissible State.reset :=
  fun _ hcaller => absurd hcaller List.not_mem_nil

/-- Nothing has been written: every row holds a free value (R212). -/
theorem read?_reset_ram (a : Nat) : State.reset.ram.read? a = none := rfl

/-- Settles O48: each invariant holds at reset, and the one chip is there. -/
theorem resetIsGood : Obligations.ResetIsGood :=
  ⟨reset_portsSettled, reset_storeInBounds, reset_allAdmissible, Nat.le_refl 1, read?_reset_ram⟩

end Sys2Proof.Machine
